-- ==== Sys2Proof/Word.lean ====
section
/-! DEFINITION. The bit-vector widths of TSHDR (spec 00_scope.md R6, R8, R9, R11): every value is an unsigned bit
vector, bit 0 the least significant. -/

namespace Sys2Proof

/-- A stream byte, an AFL byte, an 8-bit port (R8). -/
abbrev Byte := BitVec 8

/-- A header word: the big-endian value of the 4 header bytes (R15, R51), HDR_WIDTH = 32 (R6). -/
abbrev HeaderWord := BitVec 32

/-- The 34-bit command word `W = {cmd[1:0], data[31:0]}` the host presents each cycle (R70). -/
abbrev CommandWord := BitVec 34

end Sys2Proof
end

