-- ==== Sys2Proof/Syntax.lean ====
section
/-! DEFINITION. The commands of TSHDR, one constructor per row of spec/opcode_table.json (R73). -/

namespace Sys2Proof

/-- A command with its operand as R72 assembles it. The ignored bits of R71 are no part of a command: they have no
effect on any state or output (R74). -/
inductive Instr where
  /-- NOP, format C (R170). -/
  | nop
  /-- LDHDR, format W: the header word, `data[31:0]` taken whole (R100, R72). -/
  | ldhdr (hw : HeaderWord)
  /-- LDAFL, format B: the AFL byte, `data[7:0]` (R140, R72). -/
  | ldafl (afl : Byte)
  /-- CLR, format C (R171). -/
  | clr
  deriving DecidableEq, Repr

end Sys2Proof
end

