-- ==== Sys2Proof/WellFormed.lean ====
section
/-! DEFINITION. Which terms are well formed. The operand widths of a command are in its type and all `2^34` command
words are legal (R75), so every command is well formed. What can be ill formed is a LITERAL of the command syntax (R81, R82):
a number too wide for its operand. -/

namespace Sys2Proof

/-- R75: there is no illegal, reserved or malformed command. -/
def Instr.wellFormed : Instr → Bool
  | .nop => true
  | .ldhdr _ => true
  | .ldafl _ => true
  | .clr => true

/-- R81: "a literal of at most `bits` bits". -/
def literalFits (bits n : Nat) : Bool := decide (n < 2 ^ bits)

end Sys2Proof
end

