-- ==== Sys2Proof/Decode.lean ====
section
/-! DEFINITION. The command word: its fields (R70 to R72), the opcode map (R73), the decoder (total: R75) and, after it,
the encoder (R81). -/

namespace Sys2Proof

/-- `W[33:32] = cmd` (R70). -/
def cmdField (w : CommandWord) : BitVec 2 := w.extractLsb' 32 2

/-- `W[31:0] = data` (R70). -/
def dataField (w : CommandWord) : BitVec 32 := w.extractLsb' 0 32

/-- The word `W = {cmd, data}` the two ports carry together (R70). -/
def commandWord (cmd : BitVec 2) (data : BitVec 32) : CommandWord := cmd ++ data

/-- The operand of format W: `hw = data[31:0]`, taken whole (R72). -/
def operandW (data : BitVec 32) : HeaderWord := data

/-- The operand of format B: `afl = data[7:0]`; `data[31:8]` is never looked at (R72, R52). -/
def operandB (data : BitVec 32) : Byte := data.extractLsb' 0 8

/-- The opcode map of R73: `cmd` alone selects the command, whatever the state (R76). -/
def decode (w : CommandWord) : Instr :=
  if cmdField w = 0b00#2 then .nop
  else if cmdField w = 0b01#2 then .ldhdr (operandW (dataField w))
  else if cmdField w = 0b10#2 then .ldafl (operandB (dataField w))
  else .clr

/-- Why a number is no command word. -/
inductive DecodeError where
  /-- The number has a bit above bit 33. No command word has one (R70: one word of 34 bits). -/
  | wordTooWide
  deriving DecidableEq, Repr

/-- Decoding of any number, rejecting by name what is no 34-bit word. -/
def decodeNat (w : Nat) : Except DecodeError Instr :=
  if w < 2 ^ 34 then .ok (decode (BitVec.ofNat 34 w)) else .error .wordTooWide

/-- The command of the opcode-table row whose bits are `w`: one word of 34 bits (R70), whose bits above `nbits` are 0 when
the table gives it fewer. -/
def decodeTableWord (nbits w : Nat) : Option Instr :=
  match decodeNat (w % 2 ^ max nbits 34) with
  | .ok i => some i
  | .error _ => none

/-- The word of a command, its ignored bits written as 0 (R81). -/
def encode (i : Instr) : CommandWord :=
  match i with
  | .nop => commandWord 0b00#2 0#32
  | .ldhdr hw => commandWord 0b01#2 hw
  | .ldafl a => commandWord 0b10#2 (0#24 ++ a)
  | .clr => commandWord 0b11#2 0#32

/-- The mnemonic of spec/opcode_table.json (R73). -/
def Instr.mnemonic : Instr → String
  | .nop => "NOP"
  | .ldhdr _ => "LDHDR"
  | .ldafl _ => "LDAFL"
  | .clr => "CLR"

/-- One row of R73's `match` and `mask` over the 34-bit `W`. -/
structure OpcodeRow where
  mnemonic : String
  pattern : CommandWord
  mask : CommandWord
  deriving DecidableEq, Repr

/-- R73's `match` and `mask` of the four commands. -/
def opcodeTable : List OpcodeRow :=
  [⟨"NOP", 0x000000000#34, 0x300000000#34⟩, ⟨"LDHDR", 0x100000000#34, 0x300000000#34⟩,
   ⟨"LDAFL", 0x200000000#34, 0x300000000#34⟩, ⟨"CLR", 0x300000000#34, 0x300000000#34⟩]

/-- A word is of a row when its masked bits are the row's (R73). -/
def OpcodeRow.fits (r : OpcodeRow) (w : CommandWord) : Bool := w &&& r.mask == r.pattern

end Sys2Proof
end

