-- ==== Sys2Proof/Machine/Operands.lean ====
section
/-! DEFINITION. The header word as LDHDR's operand: how its bytes make it (R51), its fields by mask and shift (R77, R78,
R104 to R111), and what `adaptation_field_control` says (R79, R112). Each extractor is a function of the header word alone. -/

namespace Sys2Proof.Machine

/-- The eight fields of the header word (R77). -/
inductive HeaderField where
  | syncByte | tei | pusi | tp | pid | tsc | afc | cc
  deriving DecidableEq, Repr

/-- The mask column of R78. -/
def HeaderField.mask : HeaderField → HeaderWord
  | .syncByte => 0xFF000000#32
  | .tei => 0x00800000#32
  | .pusi => 0x00400000#32
  | .tp => 0x00200000#32
  | .pid => 0x001FFF00#32
  | .tsc => 0x000000C0#32
  | .afc => 0x00000030#32
  | .cc => 0x0000000F#32

/-- The shift column of R78. -/
def HeaderField.shift : HeaderField → Nat
  | .syncByte => 24
  | .tei => 23
  | .pusi => 22
  | .tp => 21
  | .pid => 8
  | .tsc => 6
  | .afc => 4
  | .cc => 0

/-- The result-width column of R78. -/
def HeaderField.width : HeaderField → Nat
  | .syncByte => 8
  | .tei => 1
  | .pusi => 1
  | .tp => 1
  | .pid => 13
  | .tsc => 2
  | .afc => 2
  | .cc => 4

/-- The fields in the order of R77, most significant first. -/
def HeaderField.all : List HeaderField := [.syncByte, .tei, .pusi, .tp, .pid, .tsc, .afc, .cc]

/-- `field = (header & mask) >> shift` (R78), as a 32-bit value. -/
def rawField (f : HeaderField) (hw : HeaderWord) : BitVec 32 := (hw &&& f.mask) >>> f.shift

namespace Header

/-- R51: the header word of the stream bytes b0, b1, b2, b3 is `{b0, b1, b2, b3}`. -/
def ofBytes (b0 b1 b2 b3 : Byte) : HeaderWord := b0 ++ b1 ++ b2 ++ b3

/-- `sync_byte` (R104). -/
def syncByte (hw : HeaderWord) : BitVec 8 := (rawField .syncByte hw).setWidth 8

/-- `transport_error_indicator` (R105). -/
def tei (hw : HeaderWord) : BitVec 1 := (rawField .tei hw).setWidth 1

/-- `payload_unit_start_indicator` (R106). -/
def pusi (hw : HeaderWord) : BitVec 1 := (rawField .pusi hw).setWidth 1

/-- `transport_priority` (R107). -/
def tp (hw : HeaderWord) : BitVec 1 := (rawField .tp hw).setWidth 1

/-- `PID` (R108). -/
def pid (hw : HeaderWord) : BitVec 13 := (rawField .pid hw).setWidth 13

/-- `transport_scrambling_control` (R109). -/
def tsc (hw : HeaderWord) : BitVec 2 := (rawField .tsc hw).setWidth 2

/-- `adaptation_field_control` (R110). -/
def afc (hw : HeaderWord) : BitVec 2 := (rawField .afc hw).setWidth 2

/-- `continuity_counter` (R111). -/
def cc (hw : HeaderWord) : BitVec 4 := (rawField .cc hw).setWidth 4

/-- `HDR[5]` (R112). -/
def afPresent (hw : HeaderWord) : Bool := hw.getLsbD 5

/-- `HDR[4]` (R112). -/
def plPresent (hw : HeaderWord) : Bool := hw.getLsbD 4

/-- `HDR[5:4] == 2'b00` (R112). -/
def afcRsv (hw : HeaderWord) : Bool := afc hw == 0b00#2

end Header

/-- The meanings of `adaptation_field_control` (R79). -/
inductive AfcValue where
  /-- 00, "reserved". -/
  | reserved
  /-- 01, "payload only". -/
  | payloadOnly
  /-- 10, "adaptation field only". -/
  | adaptationOnly
  /-- 11, "both". -/
  | both
  deriving DecidableEq, Repr

/-- The value column of R79. -/
def afcValueOf (afc : BitVec 2) : AfcValue :=
  if afc = 0b00#2 then .reserved
  else if afc = 0b01#2 then .payloadOnly
  else if afc = 0b10#2 then .adaptationOnly
  else .both

/-- The decoded-record type of R20, R118: the eight fields by name. -/
structure HeaderFields where
  syncByte : BitVec 8
  tei : BitVec 1
  pusi : BitVec 1
  tp : BitVec 1
  pid : BitVec 13
  tsc : BitVec 2
  afc : BitVec 2
  cc : BitVec 4
  deriving DecidableEq, Repr

/-- The one decode function of the header word (R118). -/
def headerFields (hw : HeaderWord) : HeaderFields :=
  { syncByte := Header.syncByte hw, tei := Header.tei hw, pusi := Header.pusi hw, tp := Header.tp hw,
    pid := Header.pid hw, tsc := Header.tsc hw, afc := Header.afc hw, cc := Header.cc hw }

/-- The inverse of the extractors by concatenation: `{sync_byte, tei, pusi, tp, pid, tsc, afc, cc}` (R113). -/
def packFields (f : HeaderFields) : HeaderWord :=
  f.syncByte ++ (f.tei ++ (f.pusi ++ (f.tp ++ (f.pid ++ (f.tsc ++ (f.afc ++ f.cc))))))

/-- The same by inverse shifts: `(sync_byte<<24) | (tei<<23) | … | cc` (R113). -/
def orFields (f : HeaderFields) : HeaderWord :=
  (f.syncByte.setWidth 32 <<< 24) ||| (f.tei.setWidth 32 <<< 23) ||| (f.pusi.setWidth 32 <<< 22) |||
  (f.tp.setWidth 32 <<< 21) ||| (f.pid.setWidth 32 <<< 8) ||| (f.tsc.setWidth 32 <<< 6) |||
  (f.afc.setWidth 32 <<< 4) ||| f.cc.setWidth 32

end Sys2Proof.Machine
end

