-- ==== Sys2Proof/Config.lean ====
section
/-! DEFINITION. The fixed implementation parameters of TSHDR (R6) and its one free parameter AF_LEN_BIAS (R7, R35). -/

namespace Sys2Proof.Config

/-- PKT_BYTES (R6). -/
def pktBytes : Nat := 188

/-- HDR_BYTES (R6). -/
def hdrBytes : Nat := 4

/-- DATA_BYTES (R6): the data bytes that follow the header, indexed 0 to 183. -/
def dataBytes : Nat := 184

/-- SYNC_VALUE (R6). -/
def syncValue : Byte := 0x47#8

/-- AF_LEN_BIAS (R7): 0 or 1, fixed for an instance of TSHDR and no state of it (R35). Every output that depends on it
takes it as an argument, so no statement rests on one value unless it says which. -/
abbrev AfLenBias := BitVec 1

/-- The default value of AF_LEN_BIAS (R7): the document's formula `184 − adaptation_field_length`. -/
def AfLenBias.default : AfLenBias := 0#1

end Sys2Proof.Config
end

