-- ==== Sys2Proof/Machine/State.lean ====
section
/-! DEFINITION. The state of TSHDR: its five registers (R22 to R26, and no other: R20, R21, R32, R33, R50), and beside
them the cycles the host has still to present, which the step reads (R28, R250; log entry 1). -/

namespace Sys2Proof.Machine

/-- What the input ports carry in one clock cycle (R28, R250). -/
structure Cycle where
  /-- `rst`: synchronous reset, active high. -/
  rst : Bool
  /-- `cmd`: the command code. -/
  cmd : BitVec 2
  /-- `data`: the command operand. -/
  data : BitVec 32
  /-- `idx`: the classifier's combinational query. -/
  idx : Byte
  /-- `pj`: the selector's combinational query. -/
  pj : Byte
  deriving DecidableEq, Repr

/-- The architectural registers, and the host's cycles. A 1-bit register is a `Bool` (R13). -/
structure State where
  /-- `HDR[31:0]`: the header register (R22). -/
  hdr : HeaderWord
  /-- `HV`: header valid (R23). -/
  hv : Bool
  /-- `AFL[7:0]`: the adaptation-field length register (R24). -/
  afl : Byte
  /-- `AFLV`: AFL valid (R25). -/
  aflv : Bool
  /-- `SERR`: the sticky sync error (R26). -/
  serr : Bool
  /-- The MODEL's own field (log entry 1): the cycles of the run not yet clocked, the current one first (R250). -/
  inputs : List Cycle
  deriving DecidableEq, Repr

/-- Every register at its reset value (R34), and no cycle presented yet. -/
def State.reset : State :=
  { hdr := 0x00000000#32, hv := false, afl := 0x00#8, aflv := false, serr := false, inputs := [] }

/-- Why the machine stops. -/
inductive Fault where
  /-- Raised by `step`, never by a command, when the run has no further cycle (R250: "The run ends after the rising edge of
  cycle n−1"). SAFE: hardware whose clock runs on with undriven ports does something the spec does not say. -/
  | endOfRun
  deriving DecidableEq, Repr

/-- Why an instruction has no meaning. -/
inductive Refusal where
  /-- Raised by `exec` alone, for a command not modelled yet. SAFE. No arm raises it: every command has its meaning. -/
  | notModelled (mnemonic : String)
  deriving DecidableEq, Repr

end Sys2Proof.Machine
end

