-- ==== Sys2Proof/Machine/Ops.lean ====
section
/-! DEFINITION. The named operations over the registers that the commands and reset are made of, the entry into the
terminal state (the one condition a command raises, R203 and R208) and the return from it (R210), and the reading of the
command port. TSHDR has no memory (R50), so there is no memory operation. -/

namespace Sys2Proof.Machine

/-- The validator's question about a loaded word: `data[31:24] != 8'h47` (R100, R203). -/
def badSync (hw : HeaderWord) : Bool := Header.syncByte hw != Config.syncValue

/-- Entry into the terminal state (R208): SERR becomes 1. There is no vector, no saved pc and no mode; HDR keeps the
offending word, which the load puts there. -/
def enterTerminal (s : State) : State := { s with serr := true }

/-- R203: InvalidSyncByte enters the terminal state when the loaded word's top byte is not 0x47. A word that is good leaves
SERR as it was (R211). -/
def signalInvalidSyncByte (hw : HeaderWord) (s : State) : State :=
  if badSync hw then enterTerminal s else s

/-- The AFL byte belongs to one packet: `AFL <- 8'h00; AFLV <- 0` (R100, R245). -/
def dropAfl (s : State) : State := { s with afl := 0x00#8, aflv := false }

/-- `HDR <- data[31:0]; HV <- 1` (R100). -/
def setHeader (hw : HeaderWord) (s : State) : State := { s with hdr := hw, hv := true }

/-- `AFL <- data[7:0]; AFLV <- 1` (R140). -/
def setAfl (a : Byte) (s : State) : State := { s with afl := a, aflv := true }

/-- Every register at its reset value (R34): what `rst` (R240) and CLR (R171) do, and the only return from the terminal
state (R210). The host's remaining cycles are not the registers' and stay. -/
def resetRegisters (s : State) : State := { State.reset with inputs := s.inputs }

/-- `W = {cmd, data}` as the ports carry it in a cycle (R70). -/
def Cycle.word (c : Cycle) : CommandWord := commandWord c.cmd c.data

/-- A cycle whose command port carries `w` with `rst = 0` (R28). -/
def presentIn (w : CommandWord) (c : Cycle) : Cycle :=
  { c with rst := false, cmd := cmdField w, data := dataField w }

/-- A cycle whose queries are both 0; the queries never change state (R28, R244; log entry 3). -/
def presentAlone (w : CommandWord) : Cycle :=
  { rst := false, cmd := cmdField w, data := dataField w, idx := 0#8, pj := 0#8 }

/-- The state whose current cycle presents the command word `w`; where the run has no cycle, one is added. -/
def presentWord (w : CommandWord) (s : State) : State :=
  match s.inputs with
  | [] => { s with inputs := [presentAlone w] }
  | c :: rest => { s with inputs := presentIn w c :: rest }

end Sys2Proof.Machine
end

