-- ==== Sys2Proof/Machine/AflLoad.lean ====
section
/-! DEFINITION. The adaptation-field length family (41_payload_boundary.md): LDAFL. -/

namespace Sys2Proof.Machine

/-- LDAFL (R140): accepted in every state and with every value; nothing is signalled at the load. -/
def execLdafl (afl : Byte) (s : State) : Host.Outcome State Fault Refusal := .next (setAfl afl s)

end Sys2Proof.Machine
end

