-- ==== Sys2Proof/Machine/Control.lean ====
section
/-! DEFINITION. The control family (42_control.md): NOP and CLR. TSHDR has no control transfer and no privileged command
(R172, R173). -/

namespace Sys2Proof.Machine

/-- NOP (R170): `S' = S`. -/
def execNop (s : State) : Host.Outcome State Fault Refusal := .next s

/-- CLR (R171): the reset state of R34, and the only command that leaves the terminal state (R210). -/
def execClr (s : State) : Host.Outcome State Fault Refusal := .next (resetRegisters s)

end Sys2Proof.Machine
end

