-- ==== Sys2Proof/Machine/HeaderLoad.lean ====
section
/-! DEFINITION. The header-load family (40_header_decode.md): LDHDR. -/

namespace Sys2Proof.Machine

/-- LDHDR (R100): the word is loaded whether or not its sync byte is good, the AFL byte of the earlier packet is dropped, and
a bad top byte enters the terminal state (R203, R208). -/
def execLdhdr (hw : HeaderWord) (s : State) : Host.Outcome State Fault Refusal :=
  .next (signalInvalidSyncByte hw (dropAfl (setHeader hw s)))

end Sys2Proof.Machine
end

