-- ==== Sys2Proof/Machine/Dispatch.lean ====
section
/-! DEFINITION. One arm per command (R73). -/

namespace Sys2Proof.Machine

def exec (i : Instr) (s : State) : Host.Outcome State Fault Refusal :=
  match i with
  | .nop => Sys2Proof.Machine.execNop s
  | .ldhdr hw => Sys2Proof.Machine.execLdhdr hw s
  | .ldafl afl => Sys2Proof.Machine.execLdafl afl s
  | .clr => Sys2Proof.Machine.execClr s

end Sys2Proof.Machine
end

