-- ==== Sys2Proof/Machine/Clock.lean ====
section
/-! DEFINITION. The rising clock edge that ends a cycle (R12, R240, R243): what it samples and what it does. -/

namespace Sys2Proof.Machine

/-- The edge that ends cycle `c`: with `rst = 1` every register takes its reset value and the command is ignored (R240), else
the command the port carries is executed (R73, R76). `idx` and `pj` are not sampled (R28). -/
def clockEdge (c : Cycle) (s : State) : Host.Outcome State Fault Refusal :=
  if c.rst then .next (resetRegisters s) else exec (decode c.word) s

/-- One cycle of the run: the host's current cycle is taken from the run (R57: in the order presented, one per cycle) and
its edge happens. A run with no cycle left has ended (R250; log entry 2). -/
def clockCycle (s : State) : Host.Outcome State Fault Refusal :=
  match s.inputs with
  | [] => .fault .endOfRun
  | c :: rest => clockEdge c { s with inputs := rest }

end Sys2Proof.Machine
end

