-- ==== Sys2Proof/Machine/Step.lean ====
section
/-! DEFINITION. The step: one clock cycle (R12, R243). TSHDR has no program counter and fetches nothing (R21): the command
of a step is the one the host presents in that cycle. -/

namespace Sys2Proof.Machine

/-- One clock cycle. -/
def step (s : State) : Host.Outcome State Fault Refusal := clockCycle s

/-- `s` with the command word whose bits are `w` presented in the current cycle, `rst` low; where the run has no cycle left, one is
added (log entry 3). A command is one 34-bit word (R70), whose bits above `nbits` are 0 when the table gives it fewer. -/
def State.withFetchWord (s : State) (nbits w : Nat) : State :=
  presentWord (BitVec.ofNat 34 (w % 2 ^ max nbits 34)) s

end Sys2Proof.Machine
end

