-- ==== Sys2Proof/Machine/Assembler.lean ====
section
/-! DEFINITION. The command syntax (R81), the pseudo-instruction LDHDRB (R82) and the trace directives (R83): a text, one line per
clock cycle, to the cycles it stands for. What R81 leaves open of the lexical form is log entry 8. -/

namespace Sys2Proof.Machine

/-- One line of a trace. Literals are numbers as written; `wellFormed` bounds them. -/
inductive AsmLine where
  | nop
  | ldhdr (hw : Nat)
  | ldafl (a : Nat)
  | clr
  /-- The pseudo-instruction of R82, its bytes in stream order. -/
  | ldhdrb (b0 b1 b2 b3 : Nat)
  /-- `RST` (R83). -/
  | rst
  /-- `@idx i` (R83). -/
  | idx (i : Nat)
  /-- `@pj j` (R83). -/
  | pj (j : Nat)
  deriving DecidableEq, Repr

/-- Why a text is refused. -/
inductive AsmError where
  /-- A line that is none of R81 to R83: an unknown word, a wrong number of operands, or no literal where one must be. -/
  | notALine
  /-- A literal of more bits than its operand has (R81, R82). -/
  | literalTooWide
  deriving DecidableEq, Repr

/-- The literal widths of R81 and R82, and of the query ports (R28). -/
def AsmLine.wellFormed : AsmLine → Bool
  | .nop => true
  | .ldhdr hw => literalFits 32 hw
  | .ldafl a => literalFits 8 a
  | .clr => true
  | .ldhdrb b0 b1 b2 b3 => literalFits 8 b0 && literalFits 8 b1 && literalFits 8 b2 && literalFits 8 b3
  | .rst => true
  | .idx i => literalFits 8 i
  | .pj j => literalFits 8 j

/-- R82: the literal `LDHDRB b0, b1, b2, b3` gives LDHDR. -/
def ldhdrbLiteral (b0 b1 b2 b3 : Nat) : Nat := b0 <<< 24 ||| b1 <<< 16 ||| b2 <<< 8 ||| b3

/-- The command of a line; a directive is not a command (R83). -/
def AsmLine.command : AsmLine → Option Instr
  | .nop => some .nop
  | .ldhdr hw => some (.ldhdr (BitVec.ofNat 32 hw))
  | .ldafl a => some (.ldafl (BitVec.ofNat 8 a))
  | .clr => some .clr
  | .ldhdrb b0 b1 b2 b3 => some (.ldhdr (BitVec.ofNat 32 (ldhdrbLiteral b0 b1 b2 b3)))
  | .rst => none
  | .idx _ => none
  | .pj _ => none

/-- A cycle that presents the command `i` (its ignored bits 0: R81) under the queries `idx` and `pj`. -/
def cycleOf (i : Instr) (idx pj : Byte) : Cycle :=
  { rst := false, cmd := cmdField (encode i), data := dataField (encode i), idx := idx, pj := pj }

/-- R83: `rst = 1` for one cycle. `cmd` and `data` are ignored in it and are written 0 (log entry 8). -/
def resetCycle (idx pj : Byte) : Cycle := { rst := true, cmd := 0#2, data := 0#32, idx := idx, pj := pj }

/-- The cycles of a trace whose queries are `idx` and `pj` before any directive sets them. A query directive takes no
cycle and holds for the rest of the trace (R83). -/
def assemble (idx pj : Byte) : List AsmLine → List Cycle
  | [] => []
  | .idx i :: ls => assemble (BitVec.ofNat 8 i) pj ls
  | .pj j :: ls => assemble idx (BitVec.ofNat 8 j) ls
  | .rst :: ls => resetCycle idx pj :: assemble idx pj ls
  | l :: ls =>
    match l.command with
    | none => assemble idx pj ls
    | some i => cycleOf i idx pj :: assemble idx pj ls

/-- The literal of an `@idx` line. -/
def AsmLine.idxLiteral : AsmLine → Option Nat
  | .idx i => some i
  | .nop => none
  | .ldhdr _ => none
  | .ldafl _ => none
  | .clr => none
  | .ldhdrb _ _ _ _ => none
  | .rst => none
  | .pj _ => none

/-- The literal of an `@pj` line. -/
def AsmLine.pjLiteral : AsmLine → Option Nat
  | .pj j => some j
  | .nop => none
  | .ldhdr _ => none
  | .ldafl _ => none
  | .clr => none
  | .ldhdrb _ _ _ _ => none
  | .rst => none
  | .idx _ => none

/-- The query in force after the lines `ls` (R83): that of their last directive of the kind `literalOf` reads, else `q`, the one
in force before them. -/
def queryAfter (literalOf : AsmLine → Option Nat) (q : Byte) (ls : List AsmLine) : Byte :=
  match ls.reverse.findSome? literalOf with
  | some n => BitVec.ofNat 8 n
  | none => q

/-- A blank between the words of a line. -/
def isBlank (c : Char) : Bool := c == ' ' || c == '\t' || c == '\r'

/-- The words of a line; a comma is a word of its own. `word` holds the letters of the word being read. -/
def wordsFrom (word : List Char) : List Char → List (List Char)
  | [] => if word.isEmpty then [] else [word]
  | c :: cs =>
    let done := if word.isEmpty then [] else [word]
    if isBlank c then done ++ wordsFrom [] cs
    else if c == ',' then done ++ [','] :: wordsFrom [] cs
    else wordsFrom (word ++ [c]) cs

/-- The words of a line, its comment left off: `;` starts a comment (R81). -/
def lineWords (cs : List Char) : List (List Char) := wordsFrom [] (cs.takeWhile (· != ';'))

/-- The value of a digit, if it is one of the base. -/
def digitValue (base : Nat) (c : Char) : Option Nat :=
  let n := c.toNat
  let v := if 48 ≤ n ∧ n ≤ 57 then n - 48
    else if 97 ≤ n ∧ n ≤ 102 then n - 87
    else if 65 ≤ n ∧ n ≤ 70 then n - 55
    else base
  if v < base then some v else none

/-- The number `acc` followed by the digits. -/
def digitsFrom (base acc : Nat) : List Char → Option Nat
  | [] => some acc
  | c :: cs =>
    match digitValue base c with
    | none => none
    | some v => digitsFrom base (acc * base + v) cs

/-- A literal: `0x` hex or decimal (R81). -/
def literal : List Char → Option Nat
  | [] => none
  | ['0', 'x'] => none
  | '0' :: 'x' :: ds => digitsFrom 16 0 ds
  | ds => digitsFrom 10 0 ds

/-- The words a line may begin with. -/
inductive Mnemonic where
  | nop | ldhdr | ldafl | clr | ldhdrb | rst | idx | pj
  deriving DecidableEq, Repr

/-- Mnemonics are case-insensitive (R81); the directives are read alike (log entry 8). -/
def mnemonicOf (w : List Char) : Option Mnemonic :=
  let u := w.map Char.toUpper
  if u = ['N', 'O', 'P'] then some .nop
  else if u = ['L', 'D', 'H', 'D', 'R'] then some .ldhdr
  else if u = ['L', 'D', 'A', 'F', 'L'] then some .ldafl
  else if u = ['C', 'L', 'R'] then some .clr
  else if u = ['L', 'D', 'H', 'D', 'R', 'B'] then some .ldhdrb
  else if u = ['R', 'S', 'T'] then some .rst
  else if u = ['@', 'I', 'D', 'X'] then some .idx
  else if u = ['@', 'P', 'J'] then some .pj
  else none

/-- The line a mnemonic and its operand words make, if they make one (R81 to R83). -/
def lineOf (m : Mnemonic) (args : List (List Char)) : Option AsmLine :=
  match m, args with
  | .nop, [] => some .nop
  | .ldhdr, [a] => (literal a).map .ldhdr
  | .ldafl, [a] => (literal a).map .ldafl
  | .clr, [] => some .clr
  | .ldhdrb, [a, [','], b, [','], c, [','], d] =>
    match literal a, literal b, literal c, literal d with
    | some b0, some b1, some b2, some b3 => some (.ldhdrb b0 b1 b2 b3)
    | _, _, _, _ => none
  | .rst, [] => some .rst
  | .idx, [a] => (literal a).map .idx
  | .pj, [a] => (literal a).map .pj
  | _, _ => none

/-- One line of text, whose literals must fit. A line with no word, empty or only a comment, is no line of the trace and takes no
cycle: the model's DESIGN CHOICE (log entry 8), since R81 and R83 are silent on it. -/
def parseLine (cs : List Char) : Except AsmError (Option AsmLine) :=
  match lineWords cs with
  | [] => .ok none
  | w :: args =>
    match (mnemonicOf w).bind (lineOf · args) with
    | none => .error .notALine
    | some l => if l.wellFormed then .ok (some l) else .error .literalTooWide

/-- The lines of a text; `line` holds the letters of the line being read. -/
def splitLines (line : List Char) : List Char → List (List Char)
  | [] => [line]
  | c :: cs => if c == '\n' then line :: splitLines [] cs else splitLines (line ++ [c]) cs

/-- All lines of a text, the first bad one refusing it. -/
def parseLines : List (List Char) → Except AsmError (List AsmLine)
  | [] => .ok []
  | cs :: rest =>
    match parseLine cs, parseLines rest with
    | .error e, _ => .error e
    | .ok _, .error e => .error e
    | .ok none, .ok ls => .ok ls
    | .ok (some l), .ok ls => .ok (l :: ls)

/-- The cycles a trace text stands for (R81 to R83). -/
def assembleText (idx pj : Byte) (text : List Char) : Except AsmError (List Cycle) :=
  match parseLines (splitLines [] text) with
  | .error e => .error e
  | .ok ls => .ok (assemble idx pj ls)

end Sys2Proof.Machine
end

