-- ==== Sys2Proof/Machine/Flags.lean ====
section
/-! DEFINITION. The flags of R31, each a combinational function of the registers and, for the boundary, of AF_LEN_BIAS:
the sync byte validator (R101 to R103), the presence flags (R112) and the boundary's readiness and error (R141 to R143, R148).
`psel_valid` reads the boundary and stands in Boundary.lean. No command reads a flag. -/

namespace Sys2Proof.Machine.Out

open Sys2Proof.Config

/-- `out(hdr_loaded) = HV` (R101). -/
def hdrLoaded (s : State) : Bool := s.hv

/-- `out(sync_ok) = HV && (HDR[31:24] == 8'h47)` (R101). -/
def syncOk (s : State) : Bool := s.hv && (Header.syncByte s.hdr == syncValue)

/-- `out(sync_err) = HV && (HDR[31:24] != 8'h47)` (R102). -/
def syncErr (s : State) : Bool := s.hv && (Header.syncByte s.hdr != syncValue)

/-- `out(term) = SERR` (R103). -/
def term (s : State) : Bool := s.serr

/-- `out(fields_valid) = sync_ok && !SERR` (R103). -/
def fieldsValid (s : State) : Bool := syncOk s && !s.serr

/-- `out(af_present)` (R112). -/
def afPresent (s : State) : Bool := Header.afPresent s.hdr

/-- `out(pl_present)` (R112). -/
def plPresent (s : State) : Bool := Header.plPresent s.hdr

/-- `out(afc_rsv)` (R112), not gated: 1 in the reset state too, R171's sentence on flags notwithstanding (log entry 10). -/
def afcRsv (s : State) : Bool := Header.afcRsv s.hdr

/-- A presence flag as a consumer takes it: `fields_valid` qualifies it (R103, R112). -/
def qualified (s : State) (flag : Bool) : Bool := fieldsValid s && flag

/-- `out(afl_loaded) = AFLV` (R148). -/
def aflLoaded (s : State) : Bool := s.aflv

/-- `L_af[8:0] = zext_9(AFL) + zext_9(AF_LEN_BIAS)` (R141): internal, no port. -/
def lAf (bias : AfLenBias) (s : State) : BitVec 9 := s.afl.setWidth 9 + bias.setWidth 9

/-- `out(bnd_ready) = fields_valid && (afc != 2'b11 || AFLV)` (R142). -/
def bndReady (s : State) : Bool := fieldsValid s && (Header.afc s.hdr != 0b11#2 || s.aflv)

/-- `out(afl_err) = fields_valid && afc == 2'b11 && AFLV && (L_af > 184)` (R143). -/
def aflErr (bias : AfLenBias) (s : State) : Bool :=
  fieldsValid s && (Header.afc s.hdr == 0b11#2) && s.aflv && decide (dataBytes < (lAf bias s).toNat)

end Sys2Proof.Machine.Out
end

