-- ==== Sys2Proof/Machine/Boundary.lean ====
section
/-! DEFINITION. The payload boundary mux: offset and length (R144, R145), the data byte classifier (R80, R146), the payload
selector (R147), the AFL output (R148) and the data byte index map (R55). -/

namespace Sys2Proof.Machine

open Sys2Proof.Config

/-- The classes of R80. The code 11 is never produced and has no constructor. -/
inductive IdxClass where
  | none | payload | adapt
  deriving DecidableEq, Repr

/-- The code column of R80. -/
def IdxClass.code : IdxClass → BitVec 2
  | .none => 0b00#2
  | .payload => 0b01#2
  | .adapt => 0b10#2

/-- What a consumer may read from the two wires: the code 11 has no class (93 I5). -/
def IdxClass.ofCode (c : BitVec 2) : Option IdxClass :=
  if c = 0b00#2 then some .none
  else if c = 0b01#2 then some .payload
  else if c = 0b10#2 then some .adapt
  else Option.none

/-- R55: index i names packet byte `4 + i`, and 184 to 255 name none. -/
def packetByteOf (idx : Byte) : Option Nat :=
  if idx.toNat < dataBytes then some (hdrBytes + idx.toNat) else Option.none

namespace Out

/-- The meaning of the `afc` output (R110, R79). -/
def afcValue (s : State) : AfcValue := afcValueOf (Header.afc s.hdr)

/-- `out(pl_offset)` (R144): 184 means "no payload". -/
def plOffset (bias : AfLenBias) (s : State) : Byte :=
  if !bndReady s then 184#8
  else match afcValue s with
    | .reserved => 184#8
    | .payloadOnly => 0#8
    | .adaptationOnly => 184#8
    | .both => if aflErr bias s then 184#8 else (lAf bias s).setWidth 8

/-- `out(pl_length) = 184 − pl_offset` (R145). -/
def plLength (bias : AfLenBias) (s : State) : Byte := 184#8 - plOffset bias s

/-- `out(idx_class)` (R146). -/
def idxClass (bias : AfLenBias) (s : State) (idx : Byte) : IdxClass :=
  if !bndReady s || decide (dataBytes ≤ idx.toNat) then .none
  else match afcValue s with
    | .reserved => .none
    | .payloadOnly => .payload
    | .adaptationOnly => .adapt
    | .both =>
      if aflErr bias s then .none
      else if idx.setWidth 9 < lAf bias s then .adapt
      else .payload

/-- `out(psel_valid) = (pj < pl_length)` (R147). -/
def pselValid (bias : AfLenBias) (s : State) (pj : Byte) : Bool := decide (pj < plLength bias s)

/-- `out(psel) = if psel_valid then pl_offset + pj else 8'h00` (R147). -/
def psel (bias : AfLenBias) (s : State) (pj : Byte) : Byte :=
  if pselValid bias s pj then plOffset bias s + pj else 0x00#8

/-- `out(afl_out) = AFL` (R148), not gated. -/
def aflOut (s : State) : Byte := s.afl

end Out

end Sys2Proof.Machine
end

