-- ==== Sys2Proof/Machine/Status.lean ====
section
/-! DEFINITION. The condition code (R200 to R205) and the status vector (R30). -/

namespace Sys2Proof.Machine

open Sys2Proof.Config

/-- The conditions `err_code` reports (R200). Host conditions have no code. -/
inductive ErrCode where
  /-- No condition. -/
  | none
  /-- InvalidSyncByte (R203). -/
  | sync
  /-- Adaptation-field length error (R204). -/
  | aflen
  /-- Reserved adaptation_field_control (R205). -/
  | afcrsv
  deriving DecidableEq, Repr

/-- The `err_code` column of R200. -/
def ErrCode.code : ErrCode → BitVec 2
  | .none => 0b00#2
  | .sync => 0b01#2
  | .aflen => 0b10#2
  | .afcrsv => 0b11#2

namespace Out

/-- `out(err_code)` (R201), in the priority order of R202. -/
def errCode (bias : AfLenBias) (s : State) : ErrCode :=
  if s.serr then .sync
  else if fieldsValid s && (Header.afc s.hdr == 0b00#2) then .afcrsv
  else if aflErr bias s then .aflen
  else .none

/-- `status[7:0]` (R30): ERR_CODE, BND_READY, AFL_LOADED, FIELDS_VALID, TERM, SYNC_OK, HDR_LOADED from bit 7 down. -/
def status (bias : AfLenBias) (s : State) : BitVec 8 :=
  (errCode bias s).code ++ (BitVec.ofBool (bndReady s) ++ (BitVec.ofBool (aflLoaded s) ++
    (BitVec.ofBool (fieldsValid s) ++ (BitVec.ofBool (term s) ++
      (BitVec.ofBool (syncOk s) ++ BitVec.ofBool (hdrLoaded s))))))

end Out

end Sys2Proof.Machine
end

