-- ==== Sys2Proof/Machine/Outputs.lean ====
section
/-! DEFINITION. The output ports of R29, all combinational in the registers, AF_LEN_BIAS, `idx` and `pj` (R12, R209). -/

namespace Sys2Proof.Machine

open Sys2Proof.Config

/-- The output ports with their widths (R29). A 1-bit flag is a `Bool` (R13). -/
structure Outputs where
  syncByte : BitVec 8
  tei : BitVec 1
  pusi : BitVec 1
  tp : BitVec 1
  pid : BitVec 13
  tsc : BitVec 2
  afc : BitVec 2
  cc : BitVec 4
  afPresent : Bool
  plPresent : Bool
  afcRsv : Bool
  hdrLoaded : Bool
  syncOk : Bool
  syncErr : Bool
  term : Bool
  fieldsValid : Bool
  aflOut : Byte
  aflLoaded : Bool
  bndReady : Bool
  aflErr : Bool
  plOffset : Byte
  plLength : Byte
  idxClass : BitVec 2
  psel : Byte
  pselValid : Bool
  errCode : BitVec 2
  status : BitVec 8
  deriving DecidableEq, Repr

/-- What every output port shows while the registers are those of `s` and the queries are `idx` and `pj` (R29). -/
def outputs (bias : AfLenBias) (s : State) (idx pj : Byte) : Outputs :=
  { syncByte := Header.syncByte s.hdr, tei := Header.tei s.hdr, pusi := Header.pusi s.hdr, tp := Header.tp s.hdr,
    pid := Header.pid s.hdr, tsc := Header.tsc s.hdr, afc := Header.afc s.hdr, cc := Header.cc s.hdr,
    afPresent := Out.afPresent s, plPresent := Out.plPresent s, afcRsv := Out.afcRsv s,
    hdrLoaded := Out.hdrLoaded s, syncOk := Out.syncOk s, syncErr := Out.syncErr s, term := Out.term s,
    fieldsValid := Out.fieldsValid s, aflOut := Out.aflOut s, aflLoaded := Out.aflLoaded s,
    bndReady := Out.bndReady s, aflErr := Out.aflErr bias s, plOffset := Out.plOffset bias s,
    plLength := Out.plLength bias s, idxClass := (Out.idxClass bias s idx).code, psel := Out.psel bias s pj,
    pselValid := Out.pselValid bias s pj, errCode := (Out.errCode bias s).code, status := Out.status bias s }

end Sys2Proof.Machine
end

