-- ==== Sys2Proof/Machine/FramingHost.lean ====
section
/-! DEFINITION. The ABSTRACT HOST of R214 to R217: the framing loop as far as the spec states what it owes TSHDR and what
TSHDR's outputs mean to it. It is out of TSHDR's scope (R5) and no part of `step`. The byte source is a list of what its reads
return (log entry 9). -/

namespace Sys2Proof.Machine

open Sys2Proof.Config

/-- What the 4-byte header read returns (R215). -/
inductive HeaderRead where
  /-- 0 bytes: end of input. -/
  | endOfInput
  /-- 1 to 3 bytes: the first, and how many of the two more. -/
  | short (b0 : Byte) (more : List Byte)
  /-- The 4 bytes, in stream order. -/
  | full (b0 b1 b2 b3 : Byte)
  /-- An error of the byte source, propagated verbatim. -/
  | failed (error : Nat)
  deriving DecidableEq, Repr

/-- What the 184-byte payload read returns (R215). -/
inductive PayloadRead where
  /-- 0 bytes: end of input. -/
  | endOfInput
  /-- 1 to 183 bytes. -/
  | short (b0 : Byte) (more : List Byte)
  /-- All 184 data bytes. -/
  | full (data : Vector Byte 184)
  /-- An error of the byte source, propagated verbatim. -/
  | failed (error : Nat)
  deriving DecidableEq, Repr

/-- One iteration of the loop: what its two reads return and the queries `(idx, pj)` the host needs of its packet. The payload is
read only after a header whose sync byte is good (R214 step 3), so `payload` says what that read WOULD return. -/
structure PacketReads where
  header : HeaderRead
  payload : PayloadRead
  queries : List (Byte × Byte)
  deriving DecidableEq, Repr

/-- How a pass ends (R215), `cancelled` when the caller stops consuming it (R216). -/
inductive PassEnd where
  | endOfInput
  | truncatedPacket
  | invalidSyncByte
  | byteSourceError (error : Nat)
  | cancelled
  deriving DecidableEq, Repr

/-- What the host samples of the header (R214 step 4): the field outputs of R104 to R112. -/
structure FieldSample where
  fields : HeaderFields
  afPresent : Bool
  plPresent : Bool
  afcRsv : Bool
  deriving DecidableEq, Repr

/-- What the host samples of the boundary (R214 step 6). -/
structure BoundarySample where
  bndReady : Bool
  aflErr : Bool
  plOffset : Byte
  plLength : Byte
  deriving DecidableEq, Repr

/-- What the host's queries `idx` and `pj` answer (R214 step 6). -/
structure QuerySample where
  idxClass : IdxClass
  psel : Byte
  pselValid : Bool
  deriving DecidableEq, Repr

/-- The record the host emits (R214 step 7): the fields, the 184 data bytes, and the boundary, with the stream offset its
packet starts at and the answers to the host's queries, in their order. -/
structure PacketRecord where
  offset : Nat
  header : FieldSample
  data : Vector Byte 184
  boundary : BoundarySample
  answers : List QuerySample
  deriving DecidableEq, Repr

/-- What a pass gave its caller: the packets emitted, which are not invalidated by how the pass ends (R217 e), its ending, and the
stream offset of the packet at whose start or within which it ended. -/
structure PassResult where
  packets : List PacketRecord
  ending : PassEnd
  offset : Nat
  deriving DecidableEq, Repr

/-- The state in the cycle after the host presents a command (R243). Every command completes (R75), so the first arm is
the one taken. -/
def issue (i : Instr) (s : State) : State :=
  match exec i s with
  | .next t => t
  | .fault _ => s
  | .refused _ => s

/-- R214 step 6: LDAFL with data byte 0 when `afc = 11`. -/
def issueAfl (data : Vector Byte 184) (s : State) : State :=
  if Header.afc s.hdr = 0b11#2 then issue (.ldafl data[0]) s else s

/-- R214 step 4: the field outputs, copied. -/
def sampleFields (s : State) : FieldSample :=
  { fields := headerFields s.hdr, afPresent := Out.afPresent s, plPresent := Out.plPresent s, afcRsv := Out.afcRsv s }

/-- R214 step 6: the boundary outputs, copied. -/
def sampleBoundary (bias : AfLenBias) (s : State) : BoundarySample :=
  { bndReady := Out.bndReady s, aflErr := Out.aflErr bias s, plOffset := Out.plOffset bias s,
    plLength := Out.plLength bias s }

/-- R214 step 6: "query `idx` and `pj` as needed". Queries change no state (R244), so the host may make any number of them. -/
def sampleQuery (bias : AfLenBias) (s : State) (q : Byte × Byte) : QuerySample :=
  { idxClass := Out.idxClass bias s q.1, psel := Out.psel bias s q.2, pselValid := Out.pselValid bias s q.2 }

/-- R214 step 7: the record. The fields were sampled in state `t`, after LDHDR, the boundary and the queries in state `u`, after
the LDAFL if there was one. -/
def emitRecord (bias : AfLenBias) (offset : Nat) (data : Vector Byte 184) (queries : List (Byte × Byte)) (t u : State) :
    PacketRecord :=
  { offset := offset, header := sampleFields t, data := data, boundary := sampleBoundary bias u,
    answers := queries.map (sampleQuery bias u) }

/-- The packets emitted so far, and how the pass ends after them. -/
def emitThen (p : PacketRecord) (r : PassResult) : PassResult := { r with packets := p :: r.packets }

/-- The loop of R214 with the outcomes of R215, from the TSHDR state `s` and the stream offset the host keeps, which moves on
by a packet's 188 bytes (R6). -/
def framePackets (bias : AfLenBias) : Nat → List PacketReads → State → PassResult
  | offset, [], _ => ⟨[], .cancelled, offset⟩
  | offset, r :: rest, s =>
    match r.header with
    | .endOfInput => ⟨[], .endOfInput, offset⟩
    | .short _ _ => ⟨[], .truncatedPacket, offset⟩
    | .failed e => ⟨[], .byteSourceError e, offset⟩
    | .full b0 b1 b2 b3 =>
      let t := issue (.ldhdr (Header.ofBytes b0 b1 b2 b3)) s
      if Out.syncErr t || Out.term t then ⟨[], .invalidSyncByte, offset⟩
      else match r.payload with
        | .endOfInput => ⟨[], .truncatedPacket, offset⟩
        | .short _ _ => ⟨[], .truncatedPacket, offset⟩
        | .failed e => ⟨[], .byteSourceError e, offset⟩
        | .full data =>
          let u := issueAfl data t
          emitThen (emitRecord bias offset data r.queries t u) (framePackets bias (offset + pktBytes) rest u)

/-- A pass begins with CLR (or reset), before its first LDHDR, on a source positioned at offset 0 (R217 a, R242). -/
def framePass (bias : AfLenBias) (reads : List PacketReads) (s : State) : PassResult :=
  framePackets bias 0 reads (issue .clr s)

end Sys2Proof.Machine
end

