-- ==== Sys2Proof/Machine/Trace.lean ====
section
/-! DEFINITION. Runs and what is seen of them (R57, R243, R250), and the history functions that say in words of the
presented commands what each register holds (R22 to R26). Position in the list is the cycle index; a model has no other
time (R249). -/

namespace Sys2Proof.Machine

open Sys2Proof.Config

/-- R57: the state after the cycles `cs`, each edge acting on the state its predecessors left. -/
def run : List Cycle → State → Host.Outcome State Fault Refusal
  | [], s => .next s
  | c :: cs, s =>
    match clockEdge c s with
    | .next t => run cs t
    | .fault r => .fault r
    | .refused r => .refused r

/-- R243, R244: what the ports show DURING each of the cycles `cs`: the state before that cycle's edge, with that cycle's
queries. -/
def observe (bias : AfLenBias) : List Cycle → State → List Outputs
  | [], _ => []
  | c :: cs, s =>
    outputs bias s c.idx c.pj ::
      match clockEdge c s with
      | .next t => observe bias cs t
      | .fault _ => []
      | .refused _ => []

/-- The command a cycle executes: none while `rst = 1` (R240). -/
def Cycle.command (c : Cycle) : Option Instr := if c.rst then none else some (decode c.word)

/-- A pass begins with reset or CLR (R15, R242). -/
def Cycle.beginsPass (c : Cycle) : Bool :=
  match c.command with
  | none => true
  | some .clr => true
  | some .nop => false
  | some (.ldhdr _) => false
  | some (.ldafl _) => false

/-- The header word a cycle loads, if it loads one. -/
def Cycle.header (c : Cycle) : Option HeaderWord :=
  match c.command with
  | none => none
  | some .clr => none
  | some .nop => none
  | some (.ldhdr hw) => some hw
  | some (.ldafl _) => none

/-- The AFL byte a cycle loads, if it loads one. -/
def Cycle.aflByte (c : Cycle) : Option Byte :=
  match c.command with
  | none => none
  | some .clr => none
  | some .nop => none
  | some (.ldhdr _) => none
  | some (.ldafl a) => some a

/-- The cycles since the last reset or CLR, the newest first. -/
def thisPass (cs : List Cycle) : List Cycle := cs.reverse.takeWhile fun c => !c.beginsPass

/-- The cycles since the last LDHDR, CLR or reset, the newest first. -/
def thisPacket (cs : List Cycle) : List Cycle := (thisPass cs).takeWhile fun c => c.header.isNone

/-- The header word last loaded since the last reset or CLR (R22, R23). -/
def lastHeader (cs : List Cycle) : Option HeaderWord := (thisPass cs).findSome? Cycle.header

/-- The AFL byte last loaded since the last LDHDR, CLR or reset (R24, R25). -/
def lastAfl (cs : List Cycle) : Option Byte := (thisPacket cs).findSome? Cycle.aflByte

/-- Whether a header word whose top byte is not 0x47 was loaded since the last reset or CLR (R26). -/
def sawBadSync (cs : List Cycle) : Bool :=
  (thisPass cs).any fun c =>
    match c.header with
    | none => false
    | some hw => hw.extractLsb' 24 8 != 0x47#8

end Sys2Proof.Machine
end

