-- ==== Sys2Proof/Safety.lean ====
section
/-! DEFINITION. What a safe run of TSHDR is: the register invariants of R27, the terminal state of R208, and the rule of R103 and R217 (c)
that a header is a decoded packet only while `fields_valid = 1`. -/

namespace Sys2Proof.Machine

/-- The invariants (a) to (d) of R27, which hold in every state reachable from reset. `HV = 0` does not imply `AFLV = 0`. -/
abbrev RegisterInv (s : State) : Prop :=
  (s.serr = true → s.hv = true) ∧
  (s.hv = true ∧ s.hdr.extractLsb' 24 8 ≠ 0x47#8 → s.serr = true) ∧
  (s.aflv = false → s.afl = 0x00#8) ∧
  (s.hv = false → s.hdr = 0x00000000#32)

/-- The terminal state (R208). -/
abbrev Terminal (s : State) : Prop := s.serr = true

/-- The registers show a decoded packet (R103, R217 c). -/
abbrev ShowsPacket (s : State) : Prop := Out.fieldsValid s = true

/-- The two states have the same registers, whatever cycles their hosts still hold. -/
abbrev SameRegisters (s t : State) : Prop :=
  s.hdr = t.hdr ∧ s.hv = t.hv ∧ s.afl = t.afl ∧ s.aflv = t.aflv ∧ s.serr = t.serr

/-- No payload is presented, whatever the queries (R208, R211): the boundary is not ready, the payload is empty and every
index has class NONE. -/
abbrev NoPayload (bias : Config.AfLenBias) (s : State) : Prop :=
  Out.bndReady s = false ∧ Out.plOffset bias s = 184#8 ∧ Out.plLength bias s = 0#8 ∧
  (∀ pj : Byte, Out.pselValid bias s pj = false ∧ Out.psel bias s pj = 0x00#8) ∧
  (∀ idx : Byte, Out.idxClass bias s idx = .none)

/-- Two cycles that differ in ignored bits of the command word at most (R71, R74). -/
abbrev SameButIgnoredBits (c d : Cycle) : Prop :=
  c.rst = d.rst ∧ c.idx = d.idx ∧ c.pj = d.pj ∧ c.cmd = d.cmd ∧
  (c.cmd = 0b01#2 → c.data = d.data) ∧
  (c.cmd = 0b10#2 → c.data.extractLsb' 0 8 = d.data.extractLsb' 0 8)

/-- Two cycles that differ in the query ports at most (R28, R244). -/
abbrev SameButQueries (c d : Cycle) : Prop := c.rst = d.rst ∧ c.cmd = d.cmd ∧ c.data = d.data

/-- A cycle that neither loads a header nor begins a pass: inside the window of R246. -/
abbrev InWindow (c : Cycle) : Prop := c.beginsPass = false ∧ c.header = none

/-- A cycle that executes NOP (R170). -/
abbrev IsNop (c : Cycle) : Prop := c.command = some .nop

end Sys2Proof.Machine
end

