-- ==== Sys2Proof/Certificates/Slice0/Obligations.lean ====
section
/-! DEFINITION. The statements about TSHDR, each from the numbered rules its docstring names. `bias` is AF_LEN_BIAS throughout: no
statement assumes a value of it unless it says which (R7). -/

open Sys2Proof Sys2Proof.Machine Sys2Proof.Config

/-! ## Encoding -/

/-- Words written out from R70, R71 and R73, ignored bits at 0 and at 1, decode to the commands they stand for. The last clause,
that a number of 35 bits is refused by name, is the model's own choice (log entry 6, DEDUCED): no rule speaks of such a number. -/
def Obligations.WrittenWordsDecodeToTheirCommands : Prop :=
  decode 0b0000000000000000000000000000000000#34 = .nop ∧
  decode 0b0011111111111111111111111111111111#34 = .nop ∧
  decode 0b0101000111010000000001000100010100#34 = .ldhdr 0x47401114#32 ∧
  decode 0b0111111111111111111111111111111111#34 = .ldhdr 0xFFFFFFFF#32 ∧
  decode 0b1000000000000000000000000011111111#34 = .ldafl 0xFF#8 ∧
  decode 0b1010101011110011011110111100000111#34 = .ldafl 0x07#8 ∧
  decode 0b1100000000000000000000000000000000#34 = .clr ∧
  decode 0b1111111111111111111111111111111111#34 = .clr ∧
  decodeNat (2 ^ 34) = .error .wordTooWide

/-- R72, R73, R81: a command's word decodes to it, with its operand at every value; also as the host numbers the bits. -/
def Obligations.EncodedCommandDecodesToItself : Prop :=
  ∀ (i : Instr) (nbits : Nat), i.wellFormed = true →
    decode (encode i) = i ∧ decodeTableWord nbits (encode i).toNat = some i

/-- R73 (match and mask), R75: exactly one row of the opcode map fits a word, its command is the one decoded, and `cmd` alone
says which, the operands being those of R72. -/
def Obligations.EveryWordIsExactlyOneCommand : Prop :=
  ∀ w : CommandWord,
    (opcodeTable.filter (·.fits w)).map (·.mnemonic) = [(decode w).mnemonic] ∧
    (w.extractLsb' 32 2 = 0b00#2 → (decode w) = .nop ∧ w &&& 0x300000000#34 = 0x000000000#34) ∧
    (w.extractLsb' 32 2 = 0b01#2 → (decode w) = .ldhdr (w.extractLsb' 0 32) ∧ w &&& 0x300000000#34 = 0x100000000#34) ∧
    (w.extractLsb' 32 2 = 0b10#2 → (decode w) = .ldafl (w.extractLsb' 0 8) ∧ w &&& 0x300000000#34 = 0x200000000#34) ∧
    (w.extractLsb' 32 2 = 0b11#2 → (decode w) = .clr ∧ w &&& 0x300000000#34 = 0x300000000#34)

/-- R71, R74: two words are the same command exactly when they agree in `cmd` and in the bits the command does not ignore. -/
def Obligations.WordsAgreeUpToIgnoredBits : Prop :=
  ∀ v w : CommandWord, decode v = decode w ↔
    v.extractLsb' 32 2 = w.extractLsb' 32 2 ∧
    (v.extractLsb' 32 2 = 0b01#2 → v.extractLsb' 0 32 = w.extractLsb' 0 32) ∧
    (v.extractLsb' 32 2 = 0b10#2 → v.extractLsb' 0 8 = w.extractLsb' 0 8)

/-- R74: ignored bits have no effect on any state or output, in any run. -/
def Obligations.IgnoredBitsChangeNoStateAndNoOutput : Prop :=
  ∀ (bias : AfLenBias) (cs ds : List Cycle) (s : State), List.Forall₂ SameButIgnoredBits cs ds →
    run cs s = run ds s ∧ observe bias cs s = observe bias ds s

/-! ## The clock cycle -/

/-- R12, R28, R76: with `rst = 0` a step executes the command the word `{cmd, data}` decodes to, whatever the state, on the
registers as they are, and takes the cycle from the run. -/
def Obligations.StepExecutesTheDecodedCommand : Prop :=
  ∀ (s : State) (c : Cycle) (rest : List Cycle) (i : Instr),
    s.inputs = c :: rest → c.rst = false → i.wellFormed = true → decode (c.cmd ++ c.data) = i →
    step s = exec i { s with inputs := rest }

/-- The word placed by `withFetchWord` is the command of the very next step (log entry 3). -/
def Obligations.PlacedWordIsTheNextCommand : Prop :=
  ∀ (s : State) (nbits : Nat) (w : CommandWord),
    step (s.withFetchWord nbits w.toNat) = exec (decode w) { s with inputs := s.inputs.tail }

/-- R247, R53, R75: a command is accepted in every cycle, in every state and with any `data`; no step stalls, faults or
refuses while the run has a cycle. That it stops where the run ends (R250) is the model's choice (log entry 2). -/
def Obligations.EveryPresentedCycleCompletes : Prop :=
  ∀ s : State,
    (∀ (c : Cycle) (rest : List Cycle), s.inputs = c :: rest → ∃ t, step s = .next t ∧ t.inputs = rest) ∧
    (s.inputs = [] → step s = .fault .endOfRun)

/-- R57: steps through a run are the run of its cycles, and a run is the left-to-right composition of its parts. -/
def Obligations.RunIsTheCompositionOfItsCycles : Prop :=
  ∀ (cs ds : List Cycle) (s : State),
    Host.Core.run core cs.length { s with inputs := cs ++ s.inputs } = run cs s ∧
    ∃ t, run cs s = .next t ∧ run (cs ++ ds) s = run ds t

/-- R243, R209: in cycle n the outputs show the state the first n cycles left, under cycle n's queries, so a command
presented in cycle n shows from cycle n+1. -/
def Obligations.OutputsShowTheStateBeforeTheEdge : Prop :=
  ∀ (bias : AfLenBias) (cs : List Cycle) (s : State) (n : Nat) (c : Cycle), cs[n]? = some c →
    ∃ t, run (cs.take n) s = .next t ∧ (observe bias cs s)[n]? = some (outputs bias t c.idx c.pj) ∧
      (observe bias cs s).length = cs.length

/-- R244, R54: queries never change state, and the classifier and selector answer the query of their own cycle from
the state of that cycle. -/
def Obligations.QueriesActInTheirCycleAndChangeNoState : Prop :=
  ∀ (bias : AfLenBias) (cs ds : List Cycle) (s : State), List.Forall₂ SameButQueries cs ds →
    run cs s = run ds s ∧
    ∀ (n : Nat) (d : Cycle), ds[n]? = some d → ∃ t, run (cs.take n) s = .next t ∧
      ((observe bias ds s)[n]?).map (fun o => (o.idxClass, o.psel, o.pselValid)) =
        some ((Out.idxClass bias t d.idx).code, Out.psel bias t d.pj, Out.pselValid bias t d.pj)

/-! ## The commands -/

/-- R170: NOP leaves every register and every output as it was; its `data` is ignored, and reset wins over it. -/
def Obligations.NopHoldsEveryRegister : Prop :=
  (∀ s : State, exec .nop s = .next s) ∧
  ∀ (s : State) (c : Cycle) (rest : List Cycle), s.inputs = c :: rest → c.cmd = 0b00#2 →
    (c.rst = false → ∃ t, step s = .next t ∧ SameRegisters t s ∧ t.inputs = rest ∧
      ∀ (bias : AfLenBias) (idx pj : Byte), outputs bias t idx pj = outputs bias s idx pj) ∧
    (c.rst = true → step s = .next { State.reset with inputs := rest })

/-- R100: what LDHDR leaves in every register and flag, from every state and for every word; and that reset wins over it. -/
def Obligations.LdhdrLoadsTheHeaderWord : Prop :=
  (∀ (hw : HeaderWord) (s : State), ∃ t, exec (.ldhdr hw) s = .next t ∧
    t.hdr = hw ∧ t.hv = true ∧ t.afl = 0x00#8 ∧ t.aflv = false ∧
    t.serr = (s.serr || hw.extractLsb' 24 8 != 0x47#8) ∧ t.inputs = s.inputs ∧
    Out.hdrLoaded t = true ∧ Out.aflLoaded t = false ∧
    Out.syncOk t = (hw.extractLsb' 24 8 == 0x47#8) ∧ Out.syncErr t = (hw.extractLsb' 24 8 != 0x47#8) ∧
    Out.term t = (s.serr || hw.extractLsb' 24 8 != 0x47#8) ∧
    Out.fieldsValid t = (!s.serr && hw.extractLsb' 24 8 == 0x47#8)) ∧
  ∀ (s : State) (c : Cycle) (rest : List Cycle), s.inputs = c :: rest → c.cmd = 0b01#2 →
    (c.rst = false → step s = exec (.ldhdr c.data) { s with inputs := rest }) ∧
    (c.rst = true → step s = .next { State.reset with inputs := rest })

/-- R140: what LDAFL leaves in every register, accepted in every state and with every value; `data[31:8]` is ignored, a second
LDAFL wins, and reset wins over it. -/
def Obligations.LdaflLoadsTheAflByte : Prop :=
  (∀ (a : Byte) (s : State), ∃ t, exec (.ldafl a) s = .next t ∧
    t.afl = a ∧ t.aflv = true ∧ t.hdr = s.hdr ∧ t.hv = s.hv ∧ t.serr = s.serr ∧ t.inputs = s.inputs ∧
    Out.aflLoaded t = true ∧ (∀ b : Byte, exec (.ldafl b) t = exec (.ldafl b) s) ∧
    ∀ hw : HeaderWord, exec (.ldhdr hw) t = exec (.ldhdr hw) s) ∧
  ∀ (s : State) (c : Cycle) (rest : List Cycle), s.inputs = c :: rest → c.cmd = 0b10#2 →
    (c.rst = false → step s = exec (.ldafl (c.data.extractLsb' 0 8)) { s with inputs := rest }) ∧
    (c.rst = true → step s = .next { State.reset with inputs := rest })

/-- R171: CLR gives the registers of R34 from every state, with `data` ignored and the same with `rst`. After it `status` and
every flag of R31 are 0 but `afc_rsv`, which R112's pseudocode makes 1 on HDR = 0, not gated; R240 gives every output after reset
its own rule's value. That R112 wins over R171's sentence for this flag is the model's reading (log entry 10, DEDUCED). -/
def Obligations.ClrBeginsANewPass : Prop :=
  (∀ s : State, ∃ t, exec .clr s = .next t ∧
    t.hdr = 0x00000000#32 ∧ t.hv = false ∧ t.afl = 0x00#8 ∧ t.aflv = false ∧ t.serr = false ∧ t.inputs = s.inputs ∧
    ∀ (bias : AfLenBias) (idx pj : Byte), let o := outputs bias t idx pj
      o.hdrLoaded = false ∧ o.syncOk = false ∧ o.syncErr = false ∧ o.term = false ∧ o.fieldsValid = false ∧
      o.afPresent = false ∧ o.plPresent = false ∧ o.aflLoaded = false ∧ o.bndReady = false ∧ o.aflErr = false ∧
      o.pselValid = false ∧ o.status = 0x00#8 ∧ o.afcRsv = true) ∧
  exec .clr State.reset = .next State.reset ∧
  ∀ (s : State) (c : Cycle) (rest : List Cycle), s.inputs = c :: rest → c.cmd = 0b11#2 →
    step s = .next { State.reset with inputs := rest }

/-- R20 with R22 to R26: each register is written only by the commands its rule names, and no command touches the host's
remaining cycles. -/
def Obligations.RegistersAreWrittenOnlyByTheirCommands : Prop :=
  ∀ (i : Instr) (s t : State), exec i s = .next t →
    t.inputs = s.inputs ∧
    ((∀ hw, i ≠ .ldhdr hw) → i ≠ .clr → t.hdr = s.hdr ∧ t.hv = s.hv ∧ t.serr = s.serr) ∧
    (i = .nop → t.afl = s.afl ∧ t.aflv = s.aflv) ∧
    (t.serr = false → s.serr = true → i = .clr)

/-- R22 to R26: after any cycles from reset, HDR is the last header word loaded since the last reset or CLR (else its reset
value) and HV whether there is one, AFL the last AFL byte loaded since the last LDHDR, CLR or reset (else 0) and AFLV whether
there is one, and SERR whether a word with a bad top byte was loaded since the last reset or CLR. -/
def Obligations.RegistersRecordTheHistoryOfThePass : Prop :=
  ∀ cs : List Cycle, run cs State.reset = .next
    { hdr := (lastHeader cs).getD 0x00000000#32, hv := (lastHeader cs).isSome, afl := (lastAfl cs).getD 0x00#8,
      aflv := (lastAfl cs).isSome, serr := sawBadSync cs, inputs := [] }

/-! ## Header fields and sync validator -/

/-- R104 to R111: each field output, as the masked and shifted HDR and as the slice of HDR, whatever HV and SERR; the PID as
`{b1[4:0], b2}` (R108); and what `sync_byte` and `sync_err` are after reset. -/
def Obligations.FieldOutputsAreTheirSlicesOfHdr : Prop :=
  (∀ (bias : AfLenBias) (s : State) (idx pj : Byte), let o := outputs bias s idx pj
    (o.syncByte.setWidth 32 = (s.hdr &&& 0xFF000000#32) >>> 24 ∧ o.syncByte = s.hdr.extractLsb' 24 8) ∧
    (o.tei.setWidth 32 = (s.hdr &&& 0x00800000#32) >>> 23 ∧ o.tei = s.hdr.extractLsb' 23 1) ∧
    (o.pusi.setWidth 32 = (s.hdr &&& 0x00400000#32) >>> 22 ∧ o.pusi = s.hdr.extractLsb' 22 1) ∧
    (o.tp.setWidth 32 = (s.hdr &&& 0x00200000#32) >>> 21 ∧ o.tp = s.hdr.extractLsb' 21 1) ∧
    (o.pid.setWidth 32 = (s.hdr &&& 0x001FFF00#32) >>> 8 ∧ o.pid = s.hdr.extractLsb' 8 13 ∧
      o.pid = s.hdr.extractLsb' 16 5 ++ s.hdr.extractLsb' 8 8) ∧
    (o.tsc.setWidth 32 = (s.hdr &&& 0x000000C0#32) >>> 6 ∧ o.tsc = s.hdr.extractLsb' 6 2) ∧
    (o.afc.setWidth 32 = (s.hdr &&& 0x00000030#32) >>> 4 ∧ o.afc = s.hdr.extractLsb' 4 2) ∧
    (o.cc.setWidth 32 = (s.hdr &&& 0x0000000F#32) >>> 0 ∧ o.cc = s.hdr.extractLsb' 0 4)) ∧
  ∀ (bias : AfLenBias) (idx pj : Byte),
    (outputs bias State.reset idx pj).syncByte = 0x00#8 ∧ (outputs bias State.reset idx pj).syncErr = false

/-- R51 with R77: the four stream bytes, loaded big-endian, on the field outputs. -/
def Obligations.StreamBytesAppearOnTheFieldOutputs : Prop :=
  ∀ (b0 b1 b2 b3 : Byte) (s : State), ∃ t, exec (.ldhdr (b0 ++ b1 ++ b2 ++ b3)) s = .next t ∧
    Header.ofBytes b0 b1 b2 b3 = b0 ++ b1 ++ b2 ++ b3 ∧
    ∀ (bias : AfLenBias) (idx pj : Byte), let o := outputs bias t idx pj
      o.syncByte = b0 ∧ o.tei = b1.extractLsb' 7 1 ∧ o.pusi = b1.extractLsb' 6 1 ∧ o.tp = b1.extractLsb' 5 1 ∧
      o.pid = b1.extractLsb' 0 5 ++ b2 ∧ o.tsc = b3.extractLsb' 6 2 ∧ o.afc = b3.extractLsb' 4 2 ∧
      o.cc = b3.extractLsb' 0 4

/-- R113: the fields packed back, by concatenation and by the inverse shifts, are HDR, for every HDR. -/
def Obligations.PackedFieldsAreHdr : Prop :=
  ∀ (bias : AfLenBias) (s : State) (idx pj : Byte), let o := outputs bias s idx pj
    o.syncByte ++ (o.tei ++ (o.pusi ++ (o.tp ++ (o.pid ++ (o.tsc ++ (o.afc ++ o.cc)))))) = s.hdr ∧
    (o.syncByte.setWidth 32 <<< 24) ||| (o.tei.setWidth 32 <<< 23) ||| (o.pusi.setWidth 32 <<< 22) |||
      (o.tp.setWidth 32 <<< 21) ||| (o.pid.setWidth 32 <<< 8) ||| (o.tsc.setWidth 32 <<< 6) |||
      (o.afc.setWidth 32 <<< 4) ||| o.cc.setWidth 32 = s.hdr

/-- R78, R114: the table of masks, shifts and widths; the masks tile the word; and no extracted value exceeds its width. -/
def Obligations.MasksTileTheWordAndBoundTheFields : Prop :=
  HeaderField.all.map (fun f => (f.mask, f.shift, f.width)) =
    [(0xFF000000#32, 24, 8), (0x00800000#32, 23, 1), (0x00400000#32, 22, 1), (0x00200000#32, 21, 1),
     (0x001FFF00#32, 8, 13), (0x000000C0#32, 6, 2), (0x00000030#32, 4, 2), (0x0000000F#32, 0, 4)] ∧
  (∀ f : HeaderField, f ∈ HeaderField.all) ∧
  (∀ f g : HeaderField, f ≠ g → f.mask &&& g.mask = 0#32) ∧
  HeaderField.all.foldl (fun m f => m ||| f.mask) 0#32 = 0xFFFFFFFF#32 ∧
  (∀ (f : HeaderField) (hw : HeaderWord), (rawField f hw).toNat < 2 ^ f.width) ∧
  ∀ (bias : AfLenBias) (s : State) (idx pj : Byte), let o := outputs bias s idx pj
    o.pid.toNat ≤ 0x1FFF ∧ o.cc.toNat ≤ 15 ∧ o.afc.toNat ≤ 3 ∧ o.tsc.toNat ≤ 3 ∧ o.syncByte.toNat ≤ 0xFF ∧
    o.tei.toNat ≤ 1 ∧ o.pusi.toNat ≤ 1 ∧ o.tp.toNat ≤ 1

/-- R101, R102, R103 and their corner cases, the last two under the invariant R27 they rest on. -/
def Obligations.SyncValidatorFlags : Prop :=
  ∀ s : State,
    Out.hdrLoaded s = s.hv ∧
    (Out.syncOk s = true ↔ s.hv = true ∧ s.hdr.extractLsb' 24 8 = 0x47#8) ∧
    (Out.syncErr s = true ↔ s.hv = true ∧ s.hdr.extractLsb' 24 8 ≠ 0x47#8) ∧
    ¬(Out.syncOk s = true ∧ Out.syncErr s = true) ∧
    (Out.syncOk s = false ∧ Out.syncErr s = false ↔ s.hv = false) ∧
    Out.term s = s.serr ∧
    (Out.fieldsValid s = true ↔ Out.syncOk s = true ∧ s.serr = false) ∧
    (Out.fieldsValid s = true → s.hdr.extractLsb' 24 8 = 0x47#8) ∧
    (RegisterInv s → Out.syncErr s = true → Out.term s = true) ∧
    (RegisterInv s → Out.fieldsValid s = false → Out.term s = false → s.hv = false)

/-- R79, R112: what each value of `afc` says. -/
def Obligations.PresenceFlagsOfEachAfc : Prop :=
  ∀ s : State,
    Out.afPresent s = s.hdr.getLsbD 5 ∧ Out.plPresent s = s.hdr.getLsbD 4 ∧
    (s.hdr.extractLsb' 4 2 = 0b00#2 → Out.afPresent s = false ∧ Out.plPresent s = false ∧ Out.afcRsv s = true) ∧
    (s.hdr.extractLsb' 4 2 = 0b01#2 → Out.afPresent s = false ∧ Out.plPresent s = true ∧ Out.afcRsv s = false) ∧
    (s.hdr.extractLsb' 4 2 = 0b10#2 → Out.afPresent s = true ∧ Out.plPresent s = false ∧ Out.afcRsv s = false) ∧
    (s.hdr.extractLsb' 4 2 = 0b11#2 → Out.afPresent s = true ∧ Out.plPresent s = true ∧ Out.afcRsv s = false)

/-- R115, R116: header bits other than the sync byte and `afc` (so PID, `tei`, `tp` and `tsc` among them) change no
flag, no condition, no boundary and no register but HDR itself; the PID is passed through; and a word with a good sync byte is
accepted whatever they are. -/
def Obligations.OnlySyncByteAndAfcMatter : Prop :=
  (∀ (bias : AfLenBias) (s : State) (hw : HeaderWord) (idx pj : Byte),
    hw.extractLsb' 24 8 = s.hdr.extractLsb' 24 8 → hw.extractLsb' 4 2 = s.hdr.extractLsb' 4 2 →
    let o := outputs bias s idx pj
    let p := outputs bias { s with hdr := hw } idx pj
    p.pid = hw.extractLsb' 8 13 ∧ p.hdrLoaded = o.hdrLoaded ∧ p.aflLoaded = o.aflLoaded ∧ p.afPresent = o.afPresent ∧
    p.plPresent = o.plPresent ∧ p.afcRsv = o.afcRsv ∧
    p.fieldsValid = o.fieldsValid ∧ p.syncOk = o.syncOk ∧ p.syncErr = o.syncErr ∧ p.term = o.term ∧
    p.errCode = o.errCode ∧ p.status = o.status ∧ p.bndReady = o.bndReady ∧ p.aflErr = o.aflErr ∧
    p.plOffset = o.plOffset ∧ p.plLength = o.plLength ∧ p.idxClass = o.idxClass ∧ p.psel = o.psel ∧
    p.pselValid = o.pselValid) ∧
  (∀ (s : State) (hw hv : HeaderWord), hw.extractLsb' 24 8 = hv.extractLsb' 24 8 →
    ∃ t, exec (.ldhdr hw) s = .next t ∧ exec (.ldhdr hv) s = .next { t with hdr := hv }) ∧
  ∀ (s : State) (hw : HeaderWord), s.serr = false → hw.extractLsb' 24 8 = 0x47#8 →
    ∃ t, exec (.ldhdr hw) s = .next t ∧ Out.fieldsValid t = true

/-- R118: the outputs of R101 to R112 read only HV, HDR and SERR. -/
def Obligations.HeaderOutputsReadOnlyHvHdrSerr : Prop :=
  ∀ (s t : State) (bias bias' : AfLenBias) (idx idx' pj pj' : Byte),
    s.hv = t.hv → s.hdr = t.hdr → s.serr = t.serr →
    let o := outputs bias s idx pj
    let p := outputs bias' t idx' pj'
    o.syncByte = p.syncByte ∧ o.tei = p.tei ∧ o.pusi = p.pusi ∧ o.tp = p.tp ∧ o.pid = p.pid ∧ o.tsc = p.tsc ∧
    o.afc = p.afc ∧ o.cc = p.cc ∧ o.afPresent = p.afPresent ∧ o.plPresent = p.plPresent ∧ o.afcRsv = p.afcRsv ∧
    o.hdrLoaded = p.hdrLoaded ∧ o.syncOk = p.syncOk ∧ o.syncErr = p.syncErr ∧ o.term = p.term ∧
    o.fieldsValid = p.fieldsValid

/-! ## The payload boundary -/

/-- R141: `L_af` is AFL plus the bias, exactly, for each value of the bias; and the effective length it leaves where both are
present. -/
def Obligations.OccupiedByteCountIsExact : Prop :=
  ∀ (bias : AfLenBias) (s : State),
    (Out.lAf bias s).toNat = s.afl.toNat + bias.toNat ∧ (Out.lAf bias s).toNat ≤ 256 ∧
    (bias = 0#1 → (Out.lAf bias s).toNat = s.afl.toNat) ∧ (bias = 1#1 → (Out.lAf bias s).toNat = s.afl.toNat + 1) ∧
    (Out.bndReady s = true → s.hdr.extractLsb' 4 2 = 0b11#2 → Out.aflErr bias s = false →
      (bias = 0#1 → (Out.plLength bias s).toNat = 184 - s.afl.toNat) ∧
      (bias = 1#1 → (Out.plLength bias s).toNat = 183 - s.afl.toNat))

/-- R142 and its corner cases. -/
def Obligations.BoundaryIsReadyWhen : Prop :=
  ∀ s : State,
    (Out.bndReady s = true ↔
      Out.fieldsValid s = true ∧ (s.hdr.extractLsb' 4 2 ≠ 0b11#2 ∨ s.aflv = true)) ∧
    (s.hdr.extractLsb' 4 2 ≠ 0b11#2 → Out.bndReady s = Out.fieldsValid s) ∧
    (s.serr = true → Out.bndReady s = false)

/-- R143 and its corner cases: when `afl_err` is 1, its limit for each bias (the last legal value leaving no payload), that
the next LDHDR clears it, and that it makes no pass terminal. -/
def Obligations.AflErrorLimits : Prop :=
  ∀ (bias : AfLenBias) (s : State),
    (Out.aflErr bias s = true ↔ Out.fieldsValid s = true ∧ s.hdr.extractLsb' 4 2 = 0b11#2 ∧ s.aflv = true ∧
      184 < s.afl.toNat + bias.toNat) ∧
    (Out.fieldsValid s = true → s.hdr.extractLsb' 4 2 = 0b11#2 → s.aflv = true →
      (bias = 0#1 → (Out.aflErr bias s = true ↔ 185 ≤ s.afl.toNat) ∧ (s.afl = 184#8 → Out.plLength bias s = 0#8)) ∧
      (bias = 1#1 → (Out.aflErr bias s = true ↔ 184 ≤ s.afl.toNat) ∧ (s.afl = 183#8 → Out.plLength bias s = 0#8))) ∧
    (Out.aflErr bias s = true → Out.term s = false) ∧
    (∀ hw : HeaderWord, ∃ t, exec (.ldhdr hw) s = .next t ∧ Out.aflErr bias t = false)

/-- R144, R145 and their corner cases: the offset and the length, in numbers. -/
def Obligations.PayloadOffsetAndLength : Prop :=
  ∀ (bias : AfLenBias) (s : State),
    let off := (Out.plOffset bias s).toNat
    let len := (Out.plLength bias s).toNat
    let afc := s.hdr.extractLsb' 4 2
    let l := s.afl.toNat + bias.toNat
    (Out.bndReady s = false → off = 184) ∧
    (Out.bndReady s = true →
      (afc = 0b00#2 → off = 184) ∧ (afc = 0b01#2 → off = 0) ∧ (afc = 0b10#2 → off = 184) ∧
      (afc = 0b11#2 → (Out.aflErr bias s = true → off = 184) ∧ (Out.aflErr bias s = false → off = l ∧ l ≤ 184))) ∧
    off ≤ 184 ∧ len = 184 - off ∧
    (Out.bndReady s = false ∨ afc = 0b00#2 ∨ afc = 0b10#2 ∨ Out.aflErr bias s = true → len = 0) ∧
    (len = 184 ↔ Out.bndReady s = true ∧ (afc = 0b01#2 ∨ afc = 0b11#2 ∧ l = 0)) ∧
    (Out.bndReady s = true → afc = 0b11#2 → Out.aflErr bias s = false → bias = 0#1 → len = 184 - s.afl.toNat)

/-- R80, R146 and their corner cases: the class of every index, and its code, which is never 11. -/
def Obligations.ClassOfEachIndex : Prop :=
  ∀ (bias : AfLenBias) (s : State) (idx pj : Byte),
    let cls := Out.idxClass bias s idx
    let afc := s.hdr.extractLsb' 4 2
    let l := s.afl.toNat + bias.toNat
    (Out.bndReady s = false ∨ 184 ≤ idx.toNat → cls = .none) ∧
    (Out.bndReady s = true → idx.toNat < 184 →
      (afc = 0b00#2 → cls = .none) ∧ (afc = 0b01#2 → cls = .payload) ∧ (afc = 0b10#2 → cls = .adapt) ∧
      (afc = 0b11#2 → Out.aflErr bias s = true → cls = .none) ∧
      (afc = 0b11#2 → Out.aflErr bias s = false → idx.toNat < l → cls = .adapt) ∧
      (afc = 0b11#2 → Out.aflErr bias s = false → l ≤ idx.toNat → cls = .payload)) ∧
    (outputs bias s idx pj).idxClass = cls.code ∧ cls.code ≠ 0b11#2 ∧
    IdxClass.none.code = 0b00#2 ∧ IdxClass.payload.code = 0b01#2 ∧ IdxClass.adapt.code = 0b10#2

/-- R147 and its corner cases: the selector. -/
def Obligations.SelectorAnswersEachPayloadIndex : Prop :=
  ∀ (bias : AfLenBias) (s : State) (pj : Byte),
    let off := (Out.plOffset bias s).toNat
    let len := (Out.plLength bias s).toNat
    (Out.pselValid bias s pj = true ↔ pj.toNat < len) ∧
    (pj.toNat < len → (Out.psel bias s pj).toNat = off + pj.toNat ∧ off + pj.toNat < 184) ∧
    (len ≤ pj.toNat → Out.psel bias s pj = 0x00#8) ∧
    (len = pj.toNat + 1 → Out.pselValid bias s pj = true ∧ (Out.psel bias s pj).toNat = 183) ∧
    (len = pj.toNat → Out.pselValid bias s pj = false)

/-- R149: the boundary laws (a) to (f), for every state, bias, idx and pj. -/
def Obligations.BoundaryLaws : Prop :=
  ∀ (bias : AfLenBias) (s : State),
    let off := (Out.plOffset bias s).toNat
    let len := (Out.plLength bias s).toNat
    off + len = 184 ∧
    (∀ idx : Byte, idx.toNat < 184 → (Out.idxClass bias s idx = .payload ↔ off ≤ idx.toNat)) ∧
    (∀ idx : Byte, idx.toNat < 184 → (Out.idxClass bias s idx = .adapt ↔
      Out.bndReady s = true ∧ Out.afPresent s = true ∧ Out.aflErr bias s = false ∧
      (s.hdr.extractLsb' 4 2 = 0b10#2 ∨ idx.toNat < (Out.lAf bias s).toNat))) ∧
    ((∀ j : Byte, j.toNat < len →
        (Out.psel bias s j).toNat < 184 ∧ Out.idxClass bias s (Out.psel bias s j) = .payload) ∧
      (∀ j k : Byte, j.toNat < len → k.toNat < len → j < k → Out.psel bias s j < Out.psel bias s k) ∧
      (∀ idx : Byte, Out.idxClass bias s idx = .payload → ∃ j : Byte, j.toNat < len ∧ Out.psel bias s j = idx)) ∧
    (0 < len → Out.bndReady s = true ∧ Out.plPresent s = true) ∧
    ((List.range 184).filter fun i => Out.idxClass bias s (BitVec.ofNat 8 i) == .payload).length = len

/-- R150, R148: AFL and AFLV are read by the boundary only when `afc = 11`; elsewhere only `afl_out`, `afl_loaded` and
the latter's copy in `status` bit 4 (R30) show them, and the first two always do. -/
def Obligations.AflIsReadOnlyWhenBothArePresent : Prop :=
  ∀ (bias : AfLenBias) (s : State) (afl : Byte) (aflv : Bool) (idx pj : Byte),
    let o := outputs bias s idx pj
    let p := outputs bias { s with afl := afl, aflv := aflv } idx pj
    (p.aflOut = afl ∧ p.aflLoaded = aflv) ∧
    (s.hdr.extractLsb' 4 2 ≠ 0b11#2 →
      p.bndReady = o.bndReady ∧ p.aflErr = o.aflErr ∧ p.plOffset = o.plOffset ∧ p.plLength = o.plLength ∧
      p.idxClass = o.idxClass ∧ p.psel = o.psel ∧ p.pselValid = o.pselValid ∧ p.errCode = o.errCode ∧
      ∀ b : Nat, b ≠ 4 → p.status.getLsbD b = o.status.getLsbD b)

/-- R55: index i names packet byte `4 + i`; 184 to 255 name none and are always class NONE. -/
def Obligations.IndexesNameThePacketBytes : Prop :=
  ∀ (bias : AfLenBias) (s : State) (idx : Byte),
    (idx.toNat ≤ 183 → packetByteOf idx = some (4 + idx.toNat)) ∧
    (184 ≤ idx.toNat → packetByteOf idx = none ∧ Out.idxClass bias s idx = .none)

/-! ## Conditions, status and the terminal state -/

/-- R30: each field of the status vector, and its value after reset. -/
def Obligations.StatusVectorFields : Prop :=
  (∀ (bias : AfLenBias) (s : State) (idx pj : Byte), let o := outputs bias s idx pj
    o.status.getLsbD 0 = o.hdrLoaded ∧ o.status.getLsbD 1 = o.syncOk ∧ o.status.getLsbD 2 = o.term ∧
    o.status.getLsbD 3 = o.fieldsValid ∧ o.status.getLsbD 4 = o.aflLoaded ∧ o.status.getLsbD 5 = o.bndReady ∧
    o.status.extractLsb' 6 2 = o.errCode) ∧
  ∀ (bias : AfLenBias) (idx pj : Byte), (outputs bias State.reset idx pj).status = 0x00#8

/-- R201 with the codes of R200, and why the order decides nothing but SYNC first (R202). -/
def Obligations.ErrCodeReportsTheFirstCondition : Prop :=
  ∀ (bias : AfLenBias) (s : State) (idx pj : Byte),
    let e := (outputs bias s idx pj).errCode
    let rsv := Out.fieldsValid s = true ∧ s.hdr.extractLsb' 4 2 = 0b00#2
    (s.serr = true → e = 0b01#2) ∧
    (s.serr = false → rsv → e = 0b11#2) ∧
    (s.serr = false → ¬rsv → Out.aflErr bias s = true → e = 0b10#2) ∧
    (s.serr = false → ¬rsv → Out.aflErr bias s = false → e = 0b00#2) ∧
    ¬(rsv ∧ Out.aflErr bias s = true) ∧
    (s.serr = true → ¬rsv ∧ Out.aflErr bias s = false)

/-- R204, R205: AFLEN and AFCRSV leave the packet accepted and the pass going on, with no payload and every index NONE; the
next LDHDR ends AFLEN; and a good header with `afc = 00` is accepted, with AFCRSV. -/
def Obligations.NonFatalConditionsEmptyThePayload : Prop :=
  ∀ (bias : AfLenBias) (s : State),
    (Out.fieldsValid s = true → s.hdr.extractLsb' 4 2 = 0b11#2 → s.aflv = true → 184 < s.afl.toNat + bias.toNat →
      Out.plLength bias s = 0#8 ∧ (∀ idx : Byte, Out.idxClass bias s idx = .none) ∧
      Out.errCode bias s = .aflen ∧ Out.term s = false ∧
      ∀ hw : HeaderWord, ∃ t, exec (.ldhdr hw) s = .next t ∧ Out.errCode bias t ≠ .aflen) ∧
    (Out.fieldsValid s = true → s.hdr.extractLsb' 4 2 = 0b00#2 →
      Out.plLength bias s = 0#8 ∧ (∀ idx : Byte, Out.idxClass bias s idx = .none) ∧
      Out.errCode bias s = .afcrsv ∧ Out.term s = false) ∧
    (∀ hw : HeaderWord, s.serr = false → hw.extractLsb' 24 8 = 0x47#8 → hw.extractLsb' 4 2 = 0b00#2 →
      ∃ t, exec (.ldhdr hw) s = .next t ∧ Out.fieldsValid t = true ∧ Out.errCode bias t = .afcrsv)

/-- R203, R208: a word with a bad top byte enters the terminal state: what the entry changes, and that nothing else is. -/
def Obligations.BadSyncByteEntersTheTerminalState : Prop :=
  ∀ (bias : AfLenBias) (hw : HeaderWord) (s : State), hw.extractLsb' 24 8 ≠ 0x47#8 →
    ∃ t, exec (.ldhdr hw) s = .next t ∧ t.serr = true ∧ t.hdr = hw ∧ t.hv = true ∧ t.afl = 0x00#8 ∧ t.aflv = false ∧
      t.inputs = s.inputs ∧ Out.term t = true ∧ Out.syncErr t = true ∧ Out.fieldsValid t = false ∧
      Out.errCode bias t = .sync ∧ NoPayload bias t

/-- R211: what each command does in the terminal state, and what the outputs show there whatever is loaded. -/
def Obligations.CommandsInTheTerminalState : Prop :=
  ∀ s : State, s.serr = true →
    (∀ hw : HeaderWord, exec (.ldhdr hw) s =
      .next { s with hdr := hw, hv := true, afl := 0x00#8, aflv := false }) ∧
    (∀ a : Byte, exec (.ldafl a) s = .next { s with afl := a, aflv := true }) ∧
    exec .nop s = .next s ∧
    (∀ bias : AfLenBias, Out.errCode bias s = .sync ∧ Out.fieldsValid s = false ∧ NoPayload bias s)

/-- R210: only CLR and reset leave the terminal state, each to the reset state; no run without them does. -/
def Obligations.OnlyClrAndResetLeaveTheTerminalState : Prop :=
  (∀ s t : State, s.serr = true → step s = .next t → t.serr = false →
    ∃ (c : Cycle) (rest : List Cycle), s.inputs = c :: rest ∧ (c.rst = true ∨ c.cmd = 0b11#2) ∧
      t = { State.reset with inputs := rest }) ∧
  (∀ (s : State) (c : Cycle) (rest : List Cycle), s.inputs = c :: rest → c.rst = true ∨ c.cmd = 0b11#2 →
    step s = .next { State.reset with inputs := rest }) ∧
  ∀ (s : State) (cs : List Cycle), s.serr = true → (∀ c ∈ cs, c.rst = false ∧ c.cmd ≠ 0b11#2) →
    ∃ t, run cs s = .next t ∧ t.serr = true ∧ ∀ bias : AfLenBias, Out.errCode bias t = .sync ∧ NoPayload bias t

/-- R33: the outputs show every register, and the registers are all the state there is: equal registers give equal outputs and
equal registers after every command. -/
def Obligations.OutputsShowEveryRegister : Prop :=
  ∀ (bias : AfLenBias) (s t : State),
    ((∀ idx pj : Byte, outputs bias s idx pj = outputs bias t idx pj) ↔ SameRegisters s t) ∧
    (SameRegisters s t → ∀ i : Instr, ∃ s' t', exec i s = .next s' ∧ exec i t = .next t' ∧ SameRegisters s' t')

/-! ## Reset, hazards and invariants -/

/-- R34: the registers after reset and after CLR, from every state. -/
def Obligations.ResetValuesOfEveryRegister : Prop :=
  (State.reset.hdr = 0x00000000#32 ∧ State.reset.hv = false ∧ State.reset.afl = 0x00#8 ∧ State.reset.aflv = false ∧
    State.reset.serr = false) ∧
  ∀ (s : State) (c : Cycle), c.rst = true ∨ c.cmd = 0b11#2 →
    ∃ t, run [c] s = .next t ∧ SameRegisters t State.reset

/-- R240: reset overrides every command, lasts as long as `rst` is held, and what the outputs show after it. -/
def Obligations.ResetOverridesEveryCommand : Prop :=
  (∀ (s : State) (c : Cycle) (rest : List Cycle), s.inputs = c :: rest → c.rst = true →
    step s = .next { State.reset with inputs := rest }) ∧
  (∀ (s : State) (cs : List Cycle), cs ≠ [] → (∀ c ∈ cs, c.rst = true) →
    run cs s = .next { State.reset with inputs := s.inputs }) ∧
  ∀ (bias : AfLenBias) (idx pj : Byte), let o := outputs bias State.reset idx pj
    o.status = 0x00#8 ∧ o.errCode = 0b00#2 ∧ o.plOffset = 184#8 ∧ o.plLength = 0#8 ∧ o.idxClass = 0b00#2

/-- R241, R242: whatever the registers held before (so also the unspecified registers of power-up), a run that begins with
reset or CLR ends in the same state and shows the same outputs after its first cycle. -/
def Obligations.PassStartForgetsEarlierState : Prop :=
  ∀ (bias : AfLenBias) (s t : State) (c : Cycle) (cs : List Cycle),
    c.rst = true ∨ c.cmd = 0b11#2 → s.inputs = t.inputs →
    run (c :: cs) s = run (c :: cs) t ∧ (observe bias (c :: cs) s).tail = (observe bias (c :: cs) t).tail ∧
    run (c :: cs) s = run cs { State.reset with inputs := s.inputs }

/-- R245: an LDAFL before the LDHDR of its packet is lost; the boundary of an `afc = 11` packet stays not ready over any
cycles that load nothing, and an LDAFL after the LDHDR makes it ready where the fields are valid. -/
def Obligations.EarlyLdaflIsLost : Prop :=
  ∀ (s : State) (a b : Byte) (hw : HeaderWord),
    ∃ t u v, exec (.ldafl a) s = .next t ∧ exec (.ldhdr hw) t = .next u ∧ exec (.ldhdr hw) s = .next u ∧
      u.aflv = false ∧ u.afl = 0x00#8 ∧
      (hw.extractLsb' 4 2 = 0b11#2 → ∀ cs : List Cycle, (∀ c ∈ cs, IsNop c) →
        run cs u = .next u ∧ Out.bndReady u = false) ∧
      exec (.ldafl b) u = .next v ∧ v.afl = b ∧
      (hw.extractLsb' 4 2 = 0b11#2 → Out.bndReady v = Out.fieldsValid u)

/-- R246: the fields of a packet are visible from the cycle after its LDHDR up to and including the cycle that presents
the next LDHDR, CLR or reset, and its boundary likewise from the cycle after its last LDAFL. -/
def Obligations.PacketIsVisibleThroughItsWindow : Prop :=
  ∀ (bias : AfLenBias) (s : State) (cs : List Cycle) (last : Cycle), (∀ c ∈ cs, InWindow c) →
    (∀ o ∈ observe bias (cs ++ [last]) s,
      headerFields s.hdr = ⟨o.syncByte, o.tei, o.pusi, o.tp, o.pid, o.tsc, o.afc, o.cc⟩ ∧
      o.syncOk = Out.syncOk s ∧ o.syncErr = Out.syncErr s ∧ o.term = Out.term s ∧
      o.fieldsValid = Out.fieldsValid s) ∧
    ((∀ c ∈ cs, IsNop c) → ∀ o ∈ observe bias (cs ++ [last]) s,
      o.bndReady = Out.bndReady s ∧ o.plOffset = Out.plOffset bias s ∧ o.plLength = Out.plLength bias s ∧
      o.aflErr = Out.aflErr bias s ∧ o.errCode = (Out.errCode bias s).code)

/-- R248: NOPs between commands are harmless, repeating LDAFL is (the last value wins), and so is an LDAFL for a packet whose
`afc` is not 11. -/
def Obligations.WhatIsNotAHazard : Prop :=
  (∀ (cs : List Cycle) (s : State), run (cs.filter fun c => c.command != some .nop) s = run cs s) ∧
  (∀ (a b : Byte) (s : State), ∃ t, exec (.ldafl a) s = .next t ∧ exec (.ldafl b) t = exec (.ldafl b) s) ∧
  ∀ (bias : AfLenBias) (a : Byte) (s : State) (idx pj : Byte), s.hdr.extractLsb' 4 2 ≠ 0b11#2 →
    ∃ t, exec (.ldafl a) s = .next t ∧ Out.bndReady t = Out.bndReady s ∧ Out.aflErr bias t = Out.aflErr bias s ∧
      Out.plOffset bias t = Out.plOffset bias s ∧ Out.plLength bias t = Out.plLength bias s ∧
      Out.idxClass bias t idx = Out.idxClass bias s idx ∧ Out.psel bias t pj = Out.psel bias s pj ∧
      Out.errCode bias t = Out.errCode bias s

/-- R27: the invariants hold at reset. -/
def Obligations.ResetMeetsTheRegisterInvariants : Prop := RegisterInv State.reset

/-- R27: every step keeps the invariants, from every state that meets them, so every run from reset does; and `HV = 0` does not imply
`AFLV = 0` in the states it reaches. -/
def Obligations.EveryStepKeepsTheRegisterInvariants : Prop :=
  (∀ s t : State, RegisterInv s → step s = .next t → RegisterInv t) ∧
  (∀ (cs : List Cycle) (t : State), run cs State.reset = .next t → RegisterInv t) ∧
  ∃ (cs : List Cycle) (t : State), run cs State.reset = .next t ∧ t.hv = false ∧ t.aflv = true

/-! ## The command syntax and the abstract host -/

/-- R81, R82: a command line whose literals fit assembles to the word the rule writes, ignored bits 0, and that word decodes
to the line's command; LDHDRB is LDHDR of its bytes in stream order. -/
def Obligations.AssembledLinesAreTheirWords : Prop :=
  (∀ (hw : Nat) (idx pj : Byte), hw < 2 ^ 32 →
    (assemble idx pj [.ldhdr hw]).map Cycle.word = [0b01#2 ++ BitVec.ofNat 32 hw]) ∧
  (∀ (a : Nat) (idx pj : Byte), a < 2 ^ 8 →
    (assemble idx pj [.ldafl a]).map Cycle.word = [0b10#2 ++ (0#24 ++ BitVec.ofNat 8 a)]) ∧
  (∀ idx pj : Byte, (assemble idx pj [.nop, .clr]).map Cycle.word = [0b00#2 ++ 0#32, 0b11#2 ++ 0#32]) ∧
  (∀ (b0 b1 b2 b3 : Nat) (idx pj : Byte), (AsmLine.ldhdrb b0 b1 b2 b3).wellFormed = true →
    assemble idx pj [.ldhdrb b0 b1 b2 b3] =
      assemble idx pj [.ldhdr (b0 <<< 24 ||| b1 <<< 16 ||| b2 <<< 8 ||| b3)] ∧
    (assemble idx pj [.ldhdrb b0 b1 b2 b3]).map Cycle.word =
      [0b01#2 ++ (BitVec.ofNat 8 b0 ++ BitVec.ofNat 8 b1 ++ BitVec.ofNat 8 b2 ++ BitVec.ofNat 8 b3)]) ∧
  ∀ (l : AsmLine) (i : Instr) (idx pj : Byte), l.wellFormed = true → l.command = some i →
    (assemble idx pj [l]).map (fun c => decode c.word) = [i]

/-- R83: RST drives `rst = 1` for one cycle, whose command is ignored; a command line takes one cycle with `rst = 0`; `@idx` and
`@pj` take no cycle, and each holds for the rest of the trace: after any lines `ls` the query in force is the literal of the last
directive of its kind in them, whatever stands between, else the one before them. -/
def Obligations.DirectivesDriveResetAndQueries : Prop :=
  ∀ (idx pj : Byte) (ls ms : List AsmLine),
    assemble idx pj (ls ++ ms) =
      assemble idx pj ls ++ assemble (queryAfter AsmLine.idxLiteral idx ls) (queryAfter AsmLine.pjLiteral pj ls) ms ∧
    (∃ c, assemble idx pj [.rst] = [c] ∧ c.rst = true ∧ c.idx = idx ∧ c.pj = pj ∧
      ∀ s : State, clockEdge c s = .next { State.reset with inputs := s.inputs }) ∧
    (∀ (l : AsmLine) (i : Instr), l.command = some i →
      ∃ c, assemble idx pj [l] = [c] ∧ c.rst = false ∧ decode c.word = i ∧ c.idx = idx ∧ c.pj = pj) ∧
    (∀ i j : Nat, assemble idx pj [.idx i, .pj j] = [] ∧
      queryAfter AsmLine.idxLiteral idx (ls ++ [.idx i]) = BitVec.ofNat 8 i ∧
      queryAfter AsmLine.pjLiteral pj (ls ++ [.pj j]) = BitVec.ofNat 8 j) ∧
    ((∀ i, AsmLine.idx i ∉ ls) → queryAfter AsmLine.idxLiteral idx (ms ++ ls) = queryAfter AsmLine.idxLiteral idx ms) ∧
    ((∀ j, AsmLine.pj j ∉ ls) → queryAfter AsmLine.pjLiteral pj (ms ++ ls) = queryAfter AsmLine.pjLiteral pj ms) ∧
    ((∀ i, AsmLine.idx i ∉ ls) → (∀ j, AsmLine.pj j ∉ ls) →
      (assemble idx pj ls).length = ls.length ∧ ∀ c ∈ assemble idx pj ls, c.idx = idx ∧ c.pj = pj)

/-- R214, R215: after any number of whole packets with good sync bytes the host has emitted exactly those packets, in order,
the n-th from stream offset 188·n: the fields and flags of its header, its 184 data bytes, and its boundary, ready, with the
offset and the error that `afc`, data byte 0 and the bias give (steps 4, 6 and 7); each query of the host is answered by the
outputs while the header, and with `afc = 11` data byte 0 as AFL, are loaded (step 6). The next reads end the pass as R215's table
says, at stream offset 188·N, a bad sync byte before any payload read. The shape of the byte source, and that a list of reads
that ends is a caller's stopping (R216), is log entry 9. -/
def Obligations.HostEmitsWholePacketsThenEnds : Prop :=
  ∀ (bias : AfLenBias) (s : State) (ps : List (HeaderWord × Vector Byte 184 × List (Byte × Byte))) (last : PacketReads)
    (rest : List PacketReads), (∀ p ∈ ps, p.1.extractLsb' 24 8 = 0x47#8) →
    let reads := ps.map fun p => PacketReads.mk (.full (p.1.extractLsb' 24 8) (p.1.extractLsb' 16 8)
      (p.1.extractLsb' 8 8) (p.1.extractLsb' 0 8)) (.full p.2.1) p.2.2
    let r := framePass bias (reads ++ last :: rest) s
    let endsAs := fun e : PassEnd => r.packets.length = ps.length ∧ r.ending = e ∧ r.offset = 188 * ps.length
    (∀ (n : Nat) (p : HeaderWord × Vector Byte 184 × List (Byte × Byte)), ps[n]? = some p → ∃ e, r.packets[n]? = some e ∧
      let afc := p.1.extractLsb' 4 2
      let l := p.2.1[0].toNat + bias.toNat
      e.offset = 188 * n ∧ e.data = p.2.1 ∧ e.header.fields = headerFields p.1 ∧
      e.header.afPresent = p.1.getLsbD 5 ∧ e.header.plPresent = p.1.getLsbD 4 ∧ e.header.afcRsv = (afc == 0b00#2) ∧
      e.boundary.bndReady = true ∧
      e.boundary.aflErr = (afc == 0b11#2 && decide (184 < l)) ∧
      (afc = 0b00#2 → e.boundary.plOffset.toNat = 184) ∧
      (afc = 0b01#2 → e.boundary.plOffset.toNat = 0) ∧
      (afc = 0b10#2 → e.boundary.plOffset.toNat = 184) ∧
      (afc = 0b11#2 → l ≤ 184 → e.boundary.plOffset.toNat = l) ∧
      (afc = 0b11#2 → 184 < l → e.boundary.plOffset.toNat = 184) ∧
      e.boundary.plLength.toNat = 184 - e.boundary.plOffset.toNat ∧
      ∃ u : State, u.hdr = p.1 ∧ u.hv = true ∧ u.serr = false ∧ (afc = 0b11#2 → u.afl = p.2.1[0] ∧ u.aflv = true) ∧
        e.answers = p.2.2.map fun q => QuerySample.mk (Out.idxClass bias u q.1) (Out.psel bias u q.2)
          (Out.pselValid bias u q.2)) ∧
    (framePass bias reads s).ending = .cancelled ∧ (framePass bias reads s).packets = r.packets.take ps.length ∧
    (last.header = .endOfInput → endsAs .endOfInput) ∧
    (∀ b more, last.header = .short b more → endsAs .truncatedPacket) ∧
    (∀ e, last.header = .failed e → endsAs (.byteSourceError e)) ∧
    (∀ b0 b1 b2 b3, last.header = .full b0 b1 b2 b3 → b0 ≠ 0x47#8 → endsAs .invalidSyncByte) ∧
    (∀ b1 b2 b3, last.header = .full 0x47#8 b1 b2 b3 →
      (last.payload = .endOfInput → endsAs .truncatedPacket) ∧
      (∀ b more, last.payload = .short b more → endsAs .truncatedPacket) ∧
      (∀ e, last.payload = .failed e → endsAs (.byteSourceError e)))

/-- R103, R112: `fields_valid` qualifies the presence flags, so that a consumer takes them as they are while it is 1 and takes none
while it is 0; AFCRSV is reported exactly when a consumer takes `afc_rsv` (R201, R205). After CLR and after a reset edge `status` and
every flag of R31, the presence flags as a consumer takes them, are 0; until a header is loaded the flags but `afl_loaded` stay 0. That
R171's "every flag is 0" means the flags as consumers take them is the model's reading (log entry 10, DEDUCED). -/
def Obligations.NoFlagIsTakenUntilAHeaderIsLoaded : Prop :=
  (∀ (bias : AfLenBias) (s : State),
    (Out.fieldsValid s = true → ∀ flag, Out.qualified s flag = flag) ∧
    (Out.fieldsValid s = false → ∀ flag, Out.qualified s flag = false) ∧
    (Out.errCode bias s = .afcrsv ↔ Out.qualified s (Out.afcRsv s) = true)) ∧
  ∀ (bias : AfLenBias) (idx pj : Byte) (s : State) (c : Cycle), c.rst = true ∨ c.command = some .clr →
    ∃ t, clockEdge c s = .next t ∧
      (let o := outputs bias t idx pj
       o.status = 0x00#8 ∧ o.aflLoaded = false) ∧
      ∀ cs : List Cycle, (∀ d ∈ cs, d.header = none) → ∃ u, run cs t = .next u ∧
        let o := outputs bias u idx pj
        o.hdrLoaded = false ∧ o.syncOk = false ∧ o.syncErr = false ∧ o.term = false ∧ o.fieldsValid = false ∧
        Out.qualified u o.afPresent = false ∧ Out.qualified u o.plPresent = false ∧ Out.qualified u o.afcRsv = false ∧
        o.bndReady = false ∧ o.aflErr = false ∧ o.pselValid = false ∧ o.errCode = 0b00#2
end

