-- ==== Sys2Proof/Laws/Fields.lean ====
section
/-! SUPPORT. Each header field extractor, written by R78 as a mask and a shift, is the slice of the header word that R104 to R111 name;
and what `afcValueOf` reads. -/

namespace Sys2Proof.Machine

/-- A masked, shifted and narrowed word is a slice when the mask keeps exactly the slice's bits. -/
theorem mask_shift_eq_slice (hw mask : HeaderWord) (shift width : Nat)
    (keeps : ∀ i, i < width → mask.getLsbD (shift + i) = true) :
    ((hw &&& mask) >>> shift).setWidth width = hw.extractLsb' shift width := by
  apply BitVec.eq_of_getLsbD_eq
  intro i hi
  simp only [BitVec.getLsbD_setWidth, BitVec.getLsbD_ushiftRight, BitVec.getLsbD_and, BitVec.getLsbD_extractLsb',
    keeps i hi, Bool.and_true]

theorem syncByte_eq_slice (hw : HeaderWord) : Header.syncByte hw = hw.extractLsb' 24 8 :=
  mask_shift_eq_slice hw _ 24 8 (by decide)

theorem tei_eq_slice (hw : HeaderWord) : Header.tei hw = hw.extractLsb' 23 1 :=
  mask_shift_eq_slice hw _ 23 1 (by decide)

theorem pusi_eq_slice (hw : HeaderWord) : Header.pusi hw = hw.extractLsb' 22 1 :=
  mask_shift_eq_slice hw _ 22 1 (by decide)

theorem tp_eq_slice (hw : HeaderWord) : Header.tp hw = hw.extractLsb' 21 1 :=
  mask_shift_eq_slice hw _ 21 1 (by decide)

theorem pid_eq_slice (hw : HeaderWord) : Header.pid hw = hw.extractLsb' 8 13 :=
  mask_shift_eq_slice hw _ 8 13 (by decide)

theorem tsc_eq_slice (hw : HeaderWord) : Header.tsc hw = hw.extractLsb' 6 2 :=
  mask_shift_eq_slice hw _ 6 2 (by decide)

theorem afc_eq_slice (hw : HeaderWord) : Header.afc hw = hw.extractLsb' 4 2 :=
  mask_shift_eq_slice hw _ 4 2 (by decide)

theorem cc_eq_slice (hw : HeaderWord) : Header.cc hw = hw.extractLsb' 0 4 :=
  mask_shift_eq_slice hw _ 0 4 (by decide)

/-- The four values of a 2-bit field. -/
theorem afc_cases (v : BitVec 2) : v = 0b00#2 ∨ v = 0b01#2 ∨ v = 0b10#2 ∨ v = 0b11#2 := by
  revert v; decide

@[simp] theorem afcValueOf_00 : afcValueOf 0b00#2 = .reserved := rfl
@[simp] theorem afcValueOf_01 : afcValueOf 0b01#2 = .payloadOnly := rfl
@[simp] theorem afcValueOf_10 : afcValueOf 0b10#2 = .adaptationOnly := rfl
@[simp] theorem afcValueOf_11 : afcValueOf 0b11#2 = .both := rfl

end Sys2Proof.Machine
end

