-- ==== Sys2Proof/Laws/Boundary.lean ====
section
/-! SUPPORT. The boundary mux in numbers: what `L_af` is, that a state is in exactly one of five boundary cases, and what the
offset, the length and the class of an index are in terms of the offset. -/

namespace Sys2Proof.Machine

open Sys2Proof.Config

/-- R141: the 9-bit sum never wraps. -/
theorem lAf_toNat (bias : AfLenBias) (s : State) : (Out.lAf bias s).toNat = s.afl.toNat + bias.toNat := by
  have ha := s.afl.isLt
  have hb := bias.isLt
  simp only [Out.lAf, BitVec.toNat_add, BitVec.toNat_setWidth]
  omega

/-- R103: with valid fields a consumer takes a flag as it is, otherwise none. -/
theorem qualified_of_fieldsValid {s : State} (h : Out.fieldsValid s = true) (flag : Bool) :
    Out.qualified s flag = flag := by
  simp [Out.qualified, h]

theorem qualified_of_not_fieldsValid {s : State} (h : Out.fieldsValid s = false) (flag : Bool) :
    Out.qualified s flag = false := by
  simp [Out.qualified, h]

/-- A ready boundary has valid fields (R142). -/
theorem fieldsValid_of_bndReady {s : State} (h : Out.bndReady s = true) : Out.fieldsValid s = true := by
  simp only [Out.bndReady, Bool.and_eq_true] at h; exact h.1

/-- R143: no length error where `afc` is not 11. -/
theorem aflErr_of_afc_ne (bias : AfLenBias) {s : State} (h : Header.afc s.hdr ≠ 0b11#2) : Out.aflErr bias s = false := by
  simp [Out.aflErr, h]

/-- R143: no length error means the adaptation field fits, where the boundary waits for nothing. -/
theorem aflErr_false_iff (bias : AfLenBias) {s : State} (hr : Out.bndReady s = true) (h : Header.afc s.hdr = 0b11#2) :
    Out.aflErr bias s = false ↔ (Out.lAf bias s).toNat ≤ 184 := by
  have hf := fieldsValid_of_bndReady hr
  simp only [Out.bndReady, h, hf] at hr
  simp_all [Out.aflErr]
  rfl

/-- The five boundary cases of R144 and R146, the first one the states whose boundary is not ready. -/
theorem boundary_cases (bias : AfLenBias) (s : State) :
    (Out.bndReady s = false ∧ Out.plOffset bias s = 184#8 ∧ ∀ idx, Out.idxClass bias s idx = .none) ∨
    (Out.bndReady s = true ∧ (Header.afc s.hdr = 0b00#2 ∨ Header.afc s.hdr = 0b11#2 ∧ Out.aflErr bias s = true) ∧
      Out.plOffset bias s = 184#8 ∧ ∀ idx, Out.idxClass bias s idx = .none) ∨
    (Out.bndReady s = true ∧ Header.afc s.hdr = 0b01#2 ∧ Out.plOffset bias s = 0#8 ∧
      ∀ idx, Out.idxClass bias s idx = if idx.toNat < 184 then .payload else .none) ∨
    (Out.bndReady s = true ∧ Header.afc s.hdr = 0b10#2 ∧ Out.plOffset bias s = 184#8 ∧
      ∀ idx, Out.idxClass bias s idx = if idx.toNat < 184 then .adapt else .none) ∨
    (Out.bndReady s = true ∧ Header.afc s.hdr = 0b11#2 ∧ Out.aflErr bias s = false ∧
      (Out.lAf bias s).toNat ≤ 184 ∧ (Out.plOffset bias s).toNat = (Out.lAf bias s).toNat ∧
      ∀ idx, Out.idxClass bias s idx =
        if idx.toNat < 184 then (if idx.toNat < (Out.lAf bias s).toNat then .adapt else .payload) else .none) := by
  cases hr : Out.bndReady s with
  | false => exact .inl ⟨rfl, by simp [Out.plOffset, hr], fun idx => by simp [Out.idxClass, hr]⟩
  | true =>
    obtain h | h | h | h := afc_cases (Header.afc s.hdr)
    · exact .inr (.inl ⟨rfl, .inl h, by simp [Out.plOffset, Out.afcValue, hr, h],
        fun idx => by simp [Out.idxClass, Out.afcValue, hr, h]⟩)
    · refine .inr (.inr (.inl ⟨rfl, h, by simp [Out.plOffset, Out.afcValue, hr, h], fun idx => ?_⟩))
      by_cases hi : idx.toNat < 184 <;> simp [Out.idxClass, Out.afcValue, hr, h, hi, dataBytes, Nat.not_le.mpr, Nat.not_lt.mp]
    · refine .inr (.inr (.inr (.inl ⟨rfl, h, by simp [Out.plOffset, Out.afcValue, hr, h], fun idx => ?_⟩)))
      by_cases hi : idx.toNat < 184 <;> simp [Out.idxClass, Out.afcValue, hr, h, hi, dataBytes, Nat.not_le.mpr, Nat.not_lt.mp]
    · cases he : Out.aflErr bias s with
      | true =>
        exact .inr (.inl ⟨rfl, .inr ⟨h, rfl⟩, by simp [Out.plOffset, Out.afcValue, hr, h, he],
          fun idx => by simp [Out.idxClass, Out.afcValue, hr, h, he]⟩)
      | false =>
        have hl := (aflErr_false_iff bias hr h).mp he
        refine .inr (.inr (.inr (.inr ⟨rfl, h, rfl, hl, ?_, fun idx => ?_⟩)))
        · simp [Out.plOffset, Out.afcValue, hr, h, he]
          omega
        · have hx : idx.setWidth 9 < Out.lAf bias s ↔ idx.toNat < (Out.lAf bias s).toNat := by
            have := idx.isLt
            rw [BitVec.lt_def, BitVec.toNat_setWidth, Nat.mod_eq_of_lt (by omega)]
          by_cases hi : idx.toNat < 184 <;>
            simp [Out.idxClass, Out.afcValue, hr, h, he, hi, dataBytes, hx, Nat.not_le.mpr, Nat.not_lt.mp]

/-- R144: the offset is at most 184. -/
theorem plOffset_le (bias : AfLenBias) (s : State) : (Out.plOffset bias s).toNat ≤ 184 := by
  obtain ⟨-, h, -⟩ | ⟨-, -, h, -⟩ | ⟨-, -, h, -⟩ | ⟨-, -, h, -⟩ | ⟨-, -, -, hl, h, -⟩ := boundary_cases bias s <;>
    first | (rw [h]; decide) | omega

/-- R145: the 8-bit difference never wraps. -/
theorem plLength_toNat (bias : AfLenBias) (s : State) :
    (Out.plLength bias s).toNat = 184 - (Out.plOffset bias s).toNat := by
  have := plOffset_le bias s
  simp only [Out.plLength, BitVec.toNat_sub]
  simp
  omega

/-- R147: the 8-bit sum never wraps where the selector is valid. -/
theorem psel_toNat (bias : AfLenBias) {s : State} {pj : Byte} (h : pj.toNat < (Out.plLength bias s).toNat) :
    (Out.psel bias s pj).toNat = (Out.plOffset bias s).toNat + pj.toNat := by
  have := plOffset_le bias s
  have := plLength_toNat bias s
  have hv : Out.pselValid bias s pj = true := by simpa [Out.pselValid, BitVec.lt_def] using h
  simp only [Out.psel, hv, if_true, BitVec.toNat_add]
  omega

end Sys2Proof.Machine
end

