-- ==== Sys2Proof/Laws/Codec.lean ====
section
/-! SUPPORT. The fields of a command word put together from `cmd` and `data` (R70). -/

namespace Sys2Proof

@[simp] theorem cmdField_commandWord (cmd : BitVec 2) (data : BitVec 32) : cmdField (commandWord cmd data) = cmd := by
  change BitVec.extractLsb' (n := 2 + 32) 32 2 (cmd ++ data) = cmd
  apply BitVec.eq_of_getLsbD_eq
  intro i hi
  rw [BitVec.getLsbD_extractLsb', BitVec.getLsbD_append]
  simp [hi]

@[simp] theorem dataField_commandWord (cmd : BitVec 2) (data : BitVec 32) : dataField (commandWord cmd data) = data := by
  change BitVec.extractLsb' (n := 2 + 32) 0 32 (cmd ++ data) = data
  apply BitVec.eq_of_getLsbD_eq
  intro i hi
  rw [BitVec.getLsbD_extractLsb', BitVec.getLsbD_append]
  simp [hi]

@[simp] theorem commandWord_fields (w : CommandWord) : commandWord (cmdField w) (dataField w) = w := by
  apply BitVec.eq_of_getLsbD_eq
  intro i hi
  simp only [commandWord, cmdField, dataField, BitVec.getLsbD_append, BitVec.getLsbD_extractLsb']
  by_cases h : i < 32
  · simp [h]
  · have : i - 32 < 2 := by omega
    have e : 32 + (i - 32) = i := by omega
    simp [h, this, e]

/-- The mask of R73 keeps `cmd` alone. -/
theorem commandWord_and_mask (cmd : BitVec 2) (data : BitVec 32) :
    commandWord cmd data &&& 0x300000000#34 = commandWord cmd 0#32 := by
  have e : 0x300000000#34 = (0b11#2 ++ 0#32 : BitVec (2 + 32)) := by decide
  rw [e]
  change (cmd ++ data : BitVec (2 + 32)) &&& (0b11#2 ++ 0#32 : BitVec (2 + 32)) = (cmd ++ 0#32 : BitVec (2 + 32))
  rw [BitVec.and_append]
  have : cmd &&& 0b11#2 = cmd := by revert cmd; decide
  simp [this]

end Sys2Proof
end

