-- ==== Sys2Proof/Laws/State.lean ====
section
/-! SUPPORT. One lemma per field per register operation, so that no proof unfolds a record update; and what reset holds (R34). -/

namespace Sys2Proof.Machine

/-! ### The reset state -/
@[simp] theorem reset_hdr : State.reset.hdr = 0x00000000#32 := rfl
@[simp] theorem reset_hv : State.reset.hv = false := rfl
@[simp] theorem reset_afl : State.reset.afl = 0x00#8 := rfl
@[simp] theorem reset_aflv : State.reset.aflv = false := rfl
@[simp] theorem reset_serr : State.reset.serr = false := rfl
@[simp] theorem reset_inputs : State.reset.inputs = [] := rfl

/-! ### `enterTerminal` -/
@[simp] theorem enterTerminal_hdr (s : State) : (enterTerminal s).hdr = s.hdr := rfl
@[simp] theorem enterTerminal_hv (s : State) : (enterTerminal s).hv = s.hv := rfl
@[simp] theorem enterTerminal_afl (s : State) : (enterTerminal s).afl = s.afl := rfl
@[simp] theorem enterTerminal_aflv (s : State) : (enterTerminal s).aflv = s.aflv := rfl
@[simp] theorem enterTerminal_serr (s : State) : (enterTerminal s).serr = true := rfl
@[simp] theorem enterTerminal_inputs (s : State) : (enterTerminal s).inputs = s.inputs := rfl

/-! ### `dropAfl` -/
@[simp] theorem dropAfl_hdr (s : State) : (dropAfl s).hdr = s.hdr := rfl
@[simp] theorem dropAfl_hv (s : State) : (dropAfl s).hv = s.hv := rfl
@[simp] theorem dropAfl_afl (s : State) : (dropAfl s).afl = 0x00#8 := rfl
@[simp] theorem dropAfl_aflv (s : State) : (dropAfl s).aflv = false := rfl
@[simp] theorem dropAfl_serr (s : State) : (dropAfl s).serr = s.serr := rfl
@[simp] theorem dropAfl_inputs (s : State) : (dropAfl s).inputs = s.inputs := rfl

/-! ### `setHeader` -/
@[simp] theorem setHeader_hdr (hw : HeaderWord) (s : State) : (setHeader hw s).hdr = hw := rfl
@[simp] theorem setHeader_hv (hw : HeaderWord) (s : State) : (setHeader hw s).hv = true := rfl
@[simp] theorem setHeader_afl (hw : HeaderWord) (s : State) : (setHeader hw s).afl = s.afl := rfl
@[simp] theorem setHeader_aflv (hw : HeaderWord) (s : State) : (setHeader hw s).aflv = s.aflv := rfl
@[simp] theorem setHeader_serr (hw : HeaderWord) (s : State) : (setHeader hw s).serr = s.serr := rfl
@[simp] theorem setHeader_inputs (hw : HeaderWord) (s : State) : (setHeader hw s).inputs = s.inputs := rfl

/-! ### `setAfl` -/
@[simp] theorem setAfl_hdr (a : Byte) (s : State) : (setAfl a s).hdr = s.hdr := rfl
@[simp] theorem setAfl_hv (a : Byte) (s : State) : (setAfl a s).hv = s.hv := rfl
@[simp] theorem setAfl_afl (a : Byte) (s : State) : (setAfl a s).afl = a := rfl
@[simp] theorem setAfl_aflv (a : Byte) (s : State) : (setAfl a s).aflv = true := rfl
@[simp] theorem setAfl_serr (a : Byte) (s : State) : (setAfl a s).serr = s.serr := rfl
@[simp] theorem setAfl_inputs (a : Byte) (s : State) : (setAfl a s).inputs = s.inputs := rfl

/-! ### `resetRegisters` -/
@[simp] theorem resetRegisters_hdr (s : State) : (resetRegisters s).hdr = 0x00000000#32 := rfl
@[simp] theorem resetRegisters_hv (s : State) : (resetRegisters s).hv = false := rfl
@[simp] theorem resetRegisters_afl (s : State) : (resetRegisters s).afl = 0x00#8 := rfl
@[simp] theorem resetRegisters_aflv (s : State) : (resetRegisters s).aflv = false := rfl
@[simp] theorem resetRegisters_serr (s : State) : (resetRegisters s).serr = false := rfl
@[simp] theorem resetRegisters_inputs (s : State) : (resetRegisters s).inputs = s.inputs := rfl

end Sys2Proof.Machine
end

