-- ==== Sys2Proof/Laws/Exec.lean ====
section
/-! SUPPORT. What each shared operation, command and clock cycle can do, said once: later proofs cite these and unfold nothing. -/

namespace Sys2Proof.Machine

/-- R203 in R100's own form: SERR is kept or set, and nothing else changes. -/
theorem signalInvalidSyncByte_eq (hw : HeaderWord) (s : State) :
    signalInvalidSyncByte hw s = { s with serr := s.serr || badSync hw } := by
  unfold signalInvalidSyncByte
  cases badSync hw <;> simp [enterTerminal]

theorem badSync_eq (hw : HeaderWord) : badSync hw = (hw.extractLsb' 24 8 != 0x47#8) := by
  rw [badSync, syncByte_eq_slice]; rfl

theorem execLdhdr_eq (hw : HeaderWord) (s : State) :
    execLdhdr hw s = .next { hdr := hw, hv := true, afl := 0x00#8, aflv := false, serr := s.serr || badSync hw,
                             inputs := s.inputs } := by
  rw [execLdhdr, signalInvalidSyncByte_eq]; rfl

/-- R75: every command completes, in every state. -/
theorem exec_next (i : Instr) (s : State) : ∃ t, exec i s = .next t := by
  cases i with
  | nop => exact ⟨_, rfl⟩
  | ldhdr hw => exact ⟨_, rfl⟩
  | ldafl a => exact ⟨_, rfl⟩
  | clr => exact ⟨_, rfl⟩

/-- What a command can leave, by command. -/
theorem exec_cases {i : Instr} {s t : State} (h : exec i s = .next t) :
    (i = .nop ∧ t = s) ∨
    (∃ hw, i = .ldhdr hw ∧ t = { hdr := hw, hv := true, afl := 0x00#8, aflv := false, serr := s.serr || badSync hw,
                                 inputs := s.inputs }) ∨
    (∃ a, i = .ldafl a ∧ t = setAfl a s) ∨
    (i = .clr ∧ t = resetRegisters s) := by
  cases i with
  | nop => cases h; exact .inl ⟨rfl, rfl⟩
  | ldhdr hw =>
    have e : exec (.ldhdr hw) s = _ := execLdhdr_eq hw s
    rw [e] at h; cases h; exact .inr (.inl ⟨hw, rfl, rfl⟩)
  | ldafl a => cases h; exact .inr (.inr (.inl ⟨a, rfl, rfl⟩))
  | clr => cases h; exact .inr (.inr (.inr ⟨rfl, rfl⟩))

/-- No command touches the host's remaining cycles. -/
theorem exec_keeps_inputs {i : Instr} {s t : State} (h : exec i s = .next t) : t.inputs = s.inputs := by
  obtain ⟨-, rfl⟩ | ⟨hw, -, rfl⟩ | ⟨a, -, rfl⟩ | ⟨-, rfl⟩ := exec_cases h <;> rfl

/-- What one edge does: reset, or the command of the cycle (R240, R73). -/
theorem clockEdge_cases {c : Cycle} {s t : State} (h : clockEdge c s = .next t) :
    (c.rst = true ∧ t = resetRegisters s) ∨ (c.rst = false ∧ exec (decode c.word) s = .next t) := by
  unfold clockEdge at h
  cases hr : c.rst with
  | true => rw [hr] at h; cases h; exact .inl ⟨rfl, rfl⟩
  | false => rw [hr] at h; exact .inr ⟨rfl, h⟩

/-- Every edge completes. -/
theorem clockEdge_next (c : Cycle) (s : State) : ∃ t, clockEdge c s = .next t := by
  unfold clockEdge
  split
  · exact ⟨_, rfl⟩
  · exact exec_next _ _

theorem clockEdge_keeps_inputs {c : Cycle} {s t : State} (h : clockEdge c s = .next t) : t.inputs = s.inputs := by
  obtain ⟨-, rfl⟩ | ⟨-, he⟩ := clockEdge_cases h
  · rfl
  · exact exec_keeps_inputs he

/-- The two outcomes of a step: the run has ended, or its next cycle's edge happens (R250, R57). -/
theorem step_nil {s : State} (h : s.inputs = []) : step s = .fault .endOfRun := by
  simp [step, clockCycle, h]

theorem step_cons {s : State} {c : Cycle} {rest : List Cycle} (h : s.inputs = c :: rest) :
    step s = clockEdge c { s with inputs := rest } := by
  simp [step, clockCycle, h]

/-- A step that answers a next state had a cycle, and did its edge. -/
theorem step_cases {s t : State} (h : step s = .next t) :
    ∃ c rest, s.inputs = c :: rest ∧ clockEdge c { s with inputs := rest } = .next t := by
  cases hi : s.inputs with
  | nil => rw [step_nil hi] at h; cases h
  | cons c rest => exact ⟨c, rest, rfl, by rw [← step_cons hi]; exact h⟩

@[simp] theorem run_nil (s : State) : run [] s = .next s := rfl

theorem run_cons {c : Cycle} {s t : State} (h : clockEdge c s = .next t) (cs : List Cycle) :
    run (c :: cs) s = run cs t := by
  simp [run, h]

/-- Every run completes (R75, R247). -/
theorem run_next (cs : List Cycle) (s : State) : ∃ t, run cs s = .next t := by
  induction cs generalizing s with
  | nil => exact ⟨s, rfl⟩
  | cons c cs ih =>
    obtain ⟨t, ht⟩ := clockEdge_next c s
    rw [run_cons ht]; exact ih t

/-- Anything every edge keeps, every run keeps. -/
theorem run_keeps {P : State → Prop} (keeps : ∀ c s t, P s → clockEdge c s = .next t → P t)
    {cs : List Cycle} {s t : State} (hs : P s) (h : run cs s = .next t) : P t := by
  induction cs generalizing s with
  | nil => cases h; exact hs
  | cons c cs ih =>
    obtain ⟨u, hu⟩ := clockEdge_next c s
    rw [run_cons hu] at h
    exact ih (keeps c s u hs hu) h

end Sys2Proof.Machine
end

