-- ==== Sys2Proof/Laws/Host.lean ====
section
/-! SUPPORT. What the host's operations do, said once: the queries of a trace (R83) and the commands of the framing loop (R214). -/

namespace Sys2Proof.Machine

/-- Without a directive of its kind a query stays. -/
theorem queryAfter_of_none {f : AsmLine → Option Nat} {ls : List AsmLine} (q : Byte) (h : ∀ l ∈ ls, f l = none) :
    queryAfter f q ls = q := by
  have hn : ls.reverse.findSome? f = none := by simpa using h
  simp [queryAfter, hn]

/-- Later lines begin with the query earlier ones left. -/
theorem queryAfter_append (f : AsmLine → Option Nat) (q : Byte) (ls ms : List AsmLine) :
    queryAfter f q (ls ++ ms) = queryAfter f (queryAfter f q ls) ms := by
  simp only [queryAfter, List.reverse_append, List.findSome?_append]
  cases ms.reverse.findSome? f <;> rfl

/-- Every command completes (R75), so `issue` is the state it leaves. -/
theorem issue_of_exec {i : Instr} {s t : State} (h : exec i s = .next t) : issue i s = t := by
  simp [issue, h]

theorem issue_ldhdr (hw : HeaderWord) (s : State) :
    issue (.ldhdr hw) s = { hdr := hw, hv := true, afl := 0x00#8, aflv := false, serr := s.serr || badSync hw,
                            inputs := s.inputs } :=
  issue_of_exec (execLdhdr_eq hw s)

@[simp] theorem issue_ldafl (a : Byte) (s : State) : issue (.ldafl a) s = setAfl a s := rfl

@[simp] theorem issue_clr (s : State) : issue .clr s = resetRegisters s := rfl

/-- The LDAFL of R214 step 6 leaves the header and SERR as they are. -/
@[simp] theorem issueAfl_hdr (data : Vector Byte 184) (s : State) : (issueAfl data s).hdr = s.hdr := by
  unfold issueAfl; split <;> simp

@[simp] theorem issueAfl_hv (data : Vector Byte 184) (s : State) : (issueAfl data s).hv = s.hv := by
  unfold issueAfl; split <;> simp

@[simp] theorem issueAfl_serr (data : Vector Byte 184) (s : State) : (issueAfl data s).serr = s.serr := by
  unfold issueAfl; split <;> simp

/-- With `afc = 11` it loads data byte 0. -/
theorem issueAfl_both {data : Vector Byte 184} {s : State} (h : Header.afc s.hdr = 0b11#2) :
    issueAfl data s = setAfl data[0] s := by
  rw [issueAfl, if_pos h, issue_ldafl]

/-- A sync byte 0x47, as the two reads after LDHDR see it (R214 step 3). -/
theorem sync_test_after_ldhdr (hw : HeaderWord) {s : State} (h : s.serr = false) :
    (Out.syncErr (issue (.ldhdr hw) s) || Out.term (issue (.ldhdr hw) s)) = badSync hw := by
  rw [issue_ldhdr]
  simp only [Out.syncErr, Out.term, h, badSync, Bool.true_and, Bool.false_or, Bool.or_self]

end Sys2Proof.Machine
end

