-- ==== Sys2Proof/Laws/PerInstr.lean ====
section
/-! SUPPORT. Families of statements about every command as syntax, one lemma per constructor: OpcodeBits, the word of a command
carries the command's row of R73. -/

namespace Sys2Proof.Laws.OpcodeBits

/-- The row of R73 with the command's mnemonic fits the command's word. -/
def Statement (i : Instr) : Prop :=
  ∃ r ∈ opcodeTable, r.mnemonic = i.mnemonic ∧ encode i &&& r.mask = r.pattern

theorem nop : Statement .nop := ⟨_, .head _, rfl, rfl⟩

theorem ldhdr (hw : HeaderWord) : Statement (.ldhdr hw) :=
  ⟨⟨"LDHDR", 0x100000000#34, 0x300000000#34⟩, by decide, rfl, commandWord_and_mask 0b01#2 hw⟩

theorem ldafl (a : Byte) : Statement (.ldafl a) :=
  ⟨⟨"LDAFL", 0x200000000#34, 0x300000000#34⟩, by decide, rfl, commandWord_and_mask 0b10#2 (0#24 ++ a)⟩

theorem clr : Statement .clr := ⟨⟨"CLR", 0x300000000#34, 0x300000000#34⟩, by decide, rfl, rfl⟩

end Sys2Proof.Laws.OpcodeBits
end

