-- ==== Sys2Proof/Tests/Slice0.lean ====
section
/-! SUPPORT. Tests. Expected values are the spec's own: the encodings of 30_encoding.md and the vectors of 95_test_vectors.md (V-…, X…,
P…), never the model's answers. After them, for every statement with hypotheses a concrete state and operands that meet them (`witness_…`). -/

namespace Sys2Proof.Tests

open Sys2Proof Sys2Proof.Machine Sys2Proof.Config

/-! ### Decoding: words written out bit by bit from R70, R71 and R73 -/

theorem test_decode_nop : decode 0b0000000000000000000000000000000000#34 = .nop := by decide

/-- V-K1's word: every ignored bit 1. -/
theorem test_decode_nop_ignores_data : decode 0b0011111111111111111111111111111111#34 = .nop := by decide

/-- X1: `0x147401114`. -/
theorem test_decode_ldhdr : decode 0b0101000111010000000001000100010100#34 = .ldhdr 0x47401114#32 := by decide

/-- V-K6: `LDAFL` with data = 0xABCDEF07. -/
theorem test_decode_ldafl_ignores_high_bytes : decode 0b1010101011110011011110111100000111#34 = .ldafl 0x07#8 := by
  decide

theorem test_decode_clr : decode 0b1100000000000000000000000000000000#34 = .clr := by decide

theorem test_decode_clr_ignores_data : decode 0b1111111111111111111111111111111111#34 = .clr := by decide

theorem test_decode_rejects_35_bits : decodeNat 0b10000000000000000000000000000000000 = .error .wordTooWide := by decide

theorem test_table_word : decodeTableWord 40 0x2000000FF = some (.ldafl 0xFF#8) := by decide

/-! ### Well-formedness of literals (R81, R82) -/

theorem test_literal_of_33_bits_is_refused : (AsmLine.ldhdr 0x100000000).wellFormed = false := by decide
theorem test_literal_of_9_bits_is_refused : (AsmLine.ldafl 0x100).wellFormed = false := by decide
theorem test_byte_of_9_bits_is_refused : (AsmLine.ldhdrb 0x47 0x40 0x11 0x100).wellFormed = false := by decide
theorem test_idx_of_9_bits_is_refused : (AsmLine.idx 256).wellFormed = false := by decide
theorem test_pj_of_9_bits_is_refused : (AsmLine.pj 256).wellFormed = false := by decide
theorem test_largest_literals_are_accepted :
    (AsmLine.ldhdr 0xFFFFFFFF).wellFormed = true ∧ (AsmLine.ldafl 0xFF).wellFormed = true := by decide

/-! ### Assembling (R81 to R83) -/

/-- R82's example: `LDHDRB 0x47, 0x40, 0x11, 0x14` is `0x147401114`. -/
theorem test_parse_ldhdrb :
    parseLine ['l', 'd', 'H', 'D', 'R', 'B', ' ', '0', 'x', '4', '7', ',', ' ', '0', 'x', '4', '0', ',', '1', '7', ',',
      ' ', '0', 'x', '1', '4', ' ', ';', 'c'] = .ok (some (.ldhdrb 0x47 0x40 0x11 0x14)) ∧
    (assemble 0 0 [.ldhdrb 0x47 0x40 0x11 0x14]).map Cycle.word = [0x147401114#34] := by decide

theorem test_parse_refuses_wide_literal :
    parseLine ['L', 'D', 'A', 'F', 'L', ' ', '2', '5', '6'] = .error .literalTooWide ∧
    parseLine ['L', 'D', 'A', 'F', 'L'] = .error .notALine ∧ parseLine [' ', ';', 'x'] = .ok none := by decide

theorem test_assemble_text :
    assembleText 1#8 2#8 ['R', 'S', 'T', '\n', '@', 'i', 'd', 'x', ' ', '6', '\n', 'C', 'L', 'R'] =
      .ok [⟨true, 0#2, 0#32, 1#8, 2#8⟩, ⟨false, 3#2, 0#32, 6#8, 2#8⟩] := by decide

/-! ### V-H: header decode from reset (one LDHDR, then the outputs) -/

/-- A row of V-H: hw; sync, tei, pusi, tp, pid, tsc, afc, cc; ok, se, term, fv, afc_rsv; err, st. -/
def headerRow (hw : Nat) (sync tei pusi tp pid tsc afc cc : Nat) (ok se term fv rsv : Bool) (err st : Nat) : Bool :=
  let o := outputs 0#1 (issue (.ldhdr (BitVec.ofNat 32 hw)) State.reset) 0#8 0#8
  (o.syncByte.toNat, o.tei.toNat, o.pusi.toNat, o.tp.toNat, o.pid.toNat, o.tsc.toNat, o.afc.toNat, o.cc.toNat) ==
      (sync, tei, pusi, tp, pid, tsc, afc, cc) &&
    (o.syncOk, o.syncErr, o.term, o.fieldsValid, o.afcRsv, o.errCode.toNat, o.status.toNat) ==
      (ok, se, term, fv, rsv, err, st)

theorem test_vH_good_sync :
    headerRow 0x47401114 0x47 0 1 0 0x0011 0 1 4 true false false true false 0 0x2B ∧
    headerRow 0x47FFFFFF 0x47 1 1 1 0x1FFF 3 3 15 true false false true false 0 0x0B ∧
    headerRow 0x47000000 0x47 0 0 0 0x0000 0 0 0 true false false true true 3 0xEB ∧
    headerRow 0x471FFF10 0x47 0 0 0 0x1FFF 0 1 0 true false false true false 0 0x2B ∧
    headerRow 0x47E01234 0x47 1 1 1 0x0012 0 3 4 true false false true false 0 0x0B ∧
    headerRow 0x47A0C1D5 0x47 1 0 1 0x00C1 3 1 5 true false false true false 0 0x2B ∧
    headerRow 0x470ABC2F 0x47 0 0 0 0x0ABC 0 2 15 true false false true false 0 0x2B ∧
    headerRow 0x47123456 0x47 0 0 0 0x1234 1 1 6 true false false true false 0 0x2B := by decide

theorem test_vH_bad_sync :
    headerRow 0x4F401114 0x4F 0 1 0 0x0011 0 1 4 false true true false false 1 0x45 ∧
    headerRow 0xC7401114 0xC7 0 1 0 0x0011 0 1 4 false true true false false 1 0x45 ∧
    headerRow 0x46401114 0x46 0 1 0 0x0011 0 1 4 false true true false false 1 0x45 ∧
    headerRow 0xFFFFFFFF 0xFF 1 1 1 0x1FFF 3 3 15 false true true false false 1 0x45 ∧
    headerRow 0x00000000 0x00 0 0 0 0x0000 0 0 0 false true true false true 1 0x45 ∧
    headerRow 0x00401115 0x00 0 1 0 0x0011 0 1 5 false true true false false 1 0x45 := by decide

/-! ### V-B: the payload boundary (LDHDR 0x47000031, LDAFL a) -/

/-- The registers after the header `hw`, its AFL byte `a` loaded when `v`, in a pass with SERR = `e`. -/
def withHeader (hw : HeaderWord) (a : Byte) (v e : Bool) : State :=
  { hdr := hw, hv := true, afl := a, aflv := v, serr := e, inputs := [] }

/-- A row of V-B: bias, a; afl_err, pl_offset, pl_length, err, st. -/
def boundaryRow (bias : AfLenBias) (a : Byte) (err : Bool) (off len code st : Nat) : Bool :=
  let o := outputs bias (issue (.ldafl a) (withHeader 0x47000031#32 0#8 false false)) 0#8 0#8
  (o.aflErr, o.plOffset.toNat, o.plLength.toNat, o.errCode.toNat, o.status.toNat) == (err, off, len, code, st)

theorem test_vB_bias_0 :
    boundaryRow 0 0x00 false 0 184 0 0x3B ∧ boundaryRow 0 0x01 false 1 183 0 0x3B ∧
    boundaryRow 0 0x07 false 7 177 0 0x3B ∧ boundaryRow 0 0xB6 false 182 2 0 0x3B ∧
    boundaryRow 0 0xB7 false 183 1 0 0x3B ∧ boundaryRow 0 0xB8 false 184 0 0 0x3B ∧
    boundaryRow 0 0xB9 true 184 0 2 0xBB ∧ boundaryRow 0 0xFF true 184 0 2 0xBB := by decide

theorem test_vB_bias_1 :
    boundaryRow 1 0x00 false 1 183 0 0x3B ∧ boundaryRow 1 0x01 false 2 182 0 0x3B ∧
    boundaryRow 1 0x07 false 8 176 0 0x3B ∧ boundaryRow 1 0xB6 false 183 1 0 0x3B ∧
    boundaryRow 1 0xB7 false 184 0 0 0x3B ∧ boundaryRow 1 0xB8 true 184 0 2 0xBB ∧
    boundaryRow 1 0xFF true 184 0 2 0xBB := by decide

/-- V-B16 to V-B22: bnd_ready, pl_offset, pl_length, the class of index 0 and of index 183, err. -/
theorem test_vB_other_headers :
    ([withHeader 0x47000031 0 false false, withHeader 0x47401114 0 false false, withHeader 0x470ABC2F 0 false false,
      withHeader 0x470ABC2F 5 true false, withHeader 0x47000000 0 false false, withHeader 0x47401114 0xFF true false,
      withHeader 0x4F000031 7 true true].map fun s =>
        (Out.bndReady s, (Out.plOffset 0 s).toNat, (Out.plLength 0 s).toNat, Out.idxClass 0 s 0, Out.idxClass 0 s 183,
          Out.errCode 0 s)) =
    [(false, 184, 0, .none, .none, .none), (true, 0, 184, .payload, .payload, .none),
     (true, 184, 0, .adapt, .adapt, .none), (true, 184, 0, .adapt, .adapt, .none),
     (true, 184, 0, .none, .none, .afcrsv), (true, 0, 184, .payload, .payload, .none),
     (false, 184, 0, .none, .none, .sync)] := by decide

/-- The classifier and selector corners listed for V-B3 (bias 0, L_af = 7). -/
theorem test_vB3_index_and_selector_corners :
    let s := withHeader 0x47000031#32 0x07#8 true false
    ([0, 6, 7, 183, 184, 255].map fun i => Out.idxClass 0 s (BitVec.ofNat 8 i)) =
      [.adapt, .adapt, .payload, .payload, .none, .none] ∧
    ([0, 176, 177, 255].map fun j =>
      ((Out.psel 0 s (BitVec.ofNat 8 j)).toNat, Out.pselValid 0 s (BitVec.ofNat 8 j))) =
      [(7, true), (183, true), (0, false), (0, false)] := by decide

/-! ### V-K, V-E, V-Z: commands and steps -/

/-- V-K2: CLR in a terminal pass. -/
theorem test_vK2_clr :
    exec .clr (withHeader 0x00401115#32 0x07#8 true true) = .next State.reset := rfl

/-- V-K4: reset wins over LDHDR. -/
theorem test_vK4_reset_wins :
    step { withHeader 0x00401115#32 7#8 true true with inputs := [⟨true, 1#2, 0x47401114#32, 0#8, 0#8⟩] } =
      .next State.reset := rfl

/-- V-K6: the upper bits of LDAFL's data are ignored. -/
theorem test_vK6_ldafl_step :
    step (State.reset.withFetchWord 40 0x2ABCDEF07) =
      .next { State.reset with afl := 0x07#8, aflv := true } := rfl

/-- V-K1: NOP with all data bits 1 holds. -/
theorem test_vK1_nop_step :
    step ((withHeader 0x47401114#32 0#8 false false).withFetchWord 40 0x0FFFFFFFF) =
      .next (withHeader 0x47401114#32 0#8 false false) := rfl

/-- V-E1: SYNC is sticky and beats AFCRSV. -/
theorem test_vE1_sync_is_sticky :
    exec (.ldhdr 0x47000000#32) (withHeader 0x00000000#32 0#8 false true) =
      .next (withHeader 0x47000000#32 0#8 false true) ∧
    Out.errCode 0 (withHeader 0x47000000#32 0#8 false true) = .sync := ⟨rfl, rfl⟩

/-- V-Z2: an early LDAFL is lost. -/
theorem test_vZ2_early_ldafl_is_lost :
    exec (.ldhdr 0x47000031#32) { State.reset with afl := 7#8, aflv := true } =
      .next (withHeader 0x47000031#32 0#8 false false) := rfl

/-- V-Z1: the cycle of the LDHDR shows the reset state, the next one the header. -/
theorem test_vZ1_latency :
    (observe 0 [⟨false, 1#2, 0x47401114#32, 0#8, 0#8⟩, ⟨false, 0#2, 0#32, 0#8, 0#8⟩] State.reset).map (·.status) =
      [0x00#8, 0x2B#8] := by decide

/-- After reset `afc_rsv` is 1 by R112's pseudocode (log entry 10), with `status` 0 (R30). -/
theorem test_reset_outputs :
    (outputs 0 State.reset 0 0).afcRsv = true ∧ (outputs 0 State.reset 0 0).status = 0x00#8 := by decide

/-- After reset no consumer takes `afc_rsv` (R103); with V-H3's header one does, and it is reported. -/
theorem test_afc_rsv_as_taken :
    Out.qualified State.reset (Out.afcRsv State.reset) = false ∧
    let s := withHeader 0x47000000#32 0#8 false false
    Out.qualified s (Out.afcRsv s) = true ∧ Out.errCode 0 s = .afcrsv := by decide

theorem test_run_ends : step State.reset = .fault .endOfRun := rfl

/-! ### T: the abstract host (T1 to T3, T5) -/

theorem test_host_outcomes :
    let good := HeaderRead.full 0x47 0x40 0x11 0x14
    let data := PayloadRead.full (Vector.replicate 184 0#8)
    ([[⟨.short 0 [0], .endOfInput, []⟩],
      [⟨good, data, []⟩, ⟨.full 0x00 0x40 0x11 0x15, data, []⟩],
      [⟨good, data, []⟩, ⟨.full 0x47 0x40 0x11 0x15, .endOfInput, []⟩],
      [⟨good, .failed 5, []⟩],
      [⟨good, data, []⟩, ⟨.endOfInput, .endOfInput, []⟩]].map fun reads =>
        let r := framePass 0 reads State.reset
        (r.packets.length, r.ending, r.offset)) =
    [(0, .truncatedPacket, 0), (1, .invalidSyncByte, 188), (1, .truncatedPacket, 188), (0, .byteSourceError 5, 0),
      (1, .endOfInput, 188)] := by
  decide

/-- V-B3's header and data byte 0, then a header with `afc = 10` as in V-B18, at stream offset 188 (R214 steps 4, 6 and 7). -/
theorem test_host_record :
    let data := Vector.replicate 184 7#8
    ((framePass 0 [⟨.full 0x47 0x00 0x00 0x31, .full data, [(6#8, 0#8)]⟩,
        ⟨.full 0x47 0x00 0x00 0x20, .full data, [(6#8, 0#8)]⟩] State.reset).packets.map fun e =>
      (e.offset, e.header.afPresent, e.header.plPresent, e.boundary, e.answers)) =
    [(0, true, true, ⟨true, false, 7#8, 177#8⟩, [⟨.adapt, 7#8, true⟩]),
      (188, true, false, ⟨true, false, 184#8, 0#8⟩, [⟨.adapt, 0#8, false⟩])] := by
  decide

/-! ### Witnesses: the hypotheses of the statements can be met -/

/-- A cycle presenting the word fields `cmd` and `data` with both queries 0. -/
def present (cmd : BitVec 2) (data : BitVec 32) : Cycle := ⟨false, cmd, data, 0#8, 0#8⟩

/-- An accepted header with both fields present and its AFL byte loaded. -/
def bothState (a : Byte) : State := withHeader 0x47000031#32 a true false

theorem witness_EncodedCommandDecodesToItself : (Instr.ldhdr 0xFFFFFFFF#32).wellFormed = true := rfl

theorem witness_EveryWordIsExactlyOneCommand :
    (0x000000000#34).extractLsb' 32 2 = 0b00#2 ∧ (0x1FFFFFFFF#34).extractLsb' 32 2 = 0b01#2 ∧
    (0x2000000FF#34).extractLsb' 32 2 = 0b10#2 ∧ (0x3FFFFFFFF#34).extractLsb' 32 2 = 0b11#2 := by decide

theorem witness_IgnoredBitsChangeNoStateAndNoOutput :
    List.Forall₂ SameButIgnoredBits [present 2 0xABCDEF07, present 0 1] [present 2 0x00000007, present 0 2] :=
  .cons (by decide) (.cons (by decide) .nil)

theorem witness_StepExecutesTheDecodedCommand :
    let s := { State.reset with inputs := [present 1 0x47401114] }
    s.inputs = present 1 0x47401114 :: [] ∧ (present 1 0x47401114).rst = false ∧
    (Instr.ldhdr 0x47401114).wellFormed = true ∧ decode (1#2 ++ 0x47401114#32) = .ldhdr 0x47401114 := by decide

/-- For every statement about a state whose current cycle carries `cmd`: each of the four, with `rst` low and high. -/
theorem witness_presented_cycles :
    ∀ cmd : BitVec 2, ∀ rst : Bool, ∃ (s : State) (c : Cycle) (rest : List Cycle),
      s.inputs = c :: rest ∧ c.cmd = cmd ∧ c.rst = rst :=
  fun cmd rst => ⟨{ State.reset with inputs := [⟨rst, cmd, 0, 0, 0⟩] }, ⟨rst, cmd, 0, 0, 0⟩, [], rfl, rfl, rfl⟩

theorem witness_EveryPresentedCycleCompletes_at_the_end : State.reset.inputs = [] := rfl

theorem witness_OutputsShowTheStateBeforeTheEdge :
    [present 1 0x47401114, present 0 0][1]? = some (present 0 0) := rfl

theorem witness_QueriesActInTheirCycleAndChangeNoState :
    List.Forall₂ SameButQueries [⟨false, 0, 0, 1, 2⟩] [⟨false, 0, 0, 255, 183⟩] ∧
    [Cycle.mk false 0 0 255 183][0]? = some ⟨false, 0, 0, 255, 183⟩ :=
  ⟨.cons (by decide) .nil, rfl⟩

theorem witness_RegistersAreWrittenOnlyByTheirCommands :
    exec (.ldafl 7) State.reset = .next { State.reset with afl := 7, aflv := true } ∧
    exec .nop State.reset = .next State.reset ∧
    exec .clr (withHeader 0 0 false true) = .next State.reset ∧ (withHeader 0 0 false true).serr = true := ⟨rfl, rfl, rfl, rfl⟩

theorem witness_SyncValidatorFlags :
    Out.fieldsValid (withHeader 0x47401114 0 false false) = true ∧
    RegisterInv (withHeader 0x46401114 0 false true) ∧ Out.syncErr (withHeader 0x46401114 0 false true) = true ∧
    RegisterInv State.reset ∧ Out.fieldsValid State.reset = false ∧ Out.term State.reset = false := by decide

theorem witness_PresenceFlagsOfEachAfc :
    (0x47000000#32).extractLsb' 4 2 = 0b00#2 ∧ (0x47000010#32).extractLsb' 4 2 = 0b01#2 ∧
    (0x47000020#32).extractLsb' 4 2 = 0b10#2 ∧ (0x47000030#32).extractLsb' 4 2 = 0b11#2 := by decide

theorem witness_OnlySyncByteAndAfcMatter :
    (0x47FFFFDF#32).extractLsb' 24 8 = (0x47000010#32).extractLsb' 24 8 ∧
    (0x47FFFFDF#32).extractLsb' 4 2 = (0x47000010#32).extractLsb' 4 2 ∧
    State.reset.serr = false ∧ (0x47FFFFDF#32).extractLsb' 24 8 = 0x47#8 := by decide

theorem witness_HeaderOutputsReadOnlyHvHdrSerr :
    (bothState 1).hv = (bothState 2).hv ∧ (bothState 1).hdr = (bothState 2).hdr ∧
    (bothState 1).serr = (bothState 2).serr ∧ bothState 1 ≠ bothState 2 := by decide

theorem witness_OccupiedByteCountIsExact_and_limits :
    Out.bndReady (bothState 184) = true ∧ (bothState 184).hdr.extractLsb' 4 2 = 0b11#2 ∧
    Out.aflErr 0 (bothState 184) = false ∧ Out.aflErr 0 (bothState 185) = true ∧
    Out.aflErr 1 (bothState 183) = false ∧ Out.aflErr 1 (bothState 184) = true := by decide

theorem witness_BoundaryIsReadyWhen :
    (0x47401114#32).extractLsb' 4 2 ≠ 0b11#2 ∧ (withHeader 0 0 false true).serr = true := by decide

theorem witness_AflErrorLimits :
    Out.fieldsValid (bothState 184) = true ∧ (bothState 184).hdr.extractLsb' 4 2 = 0b11#2 ∧
    (bothState 184).aflv = true ∧ (bothState 184).afl = 184#8 ∧ (bothState 183).afl = 183#8 ∧
    Out.aflErr 0 (bothState 185) = true := by decide

theorem witness_PayloadOffsetAndLength_and_ClassOfEachIndex :
    Out.bndReady State.reset = false ∧ Out.bndReady (withHeader 0x47000000 0 false false) = true ∧
    Out.bndReady (withHeader 0x47000010 0 false false) = true ∧
    Out.bndReady (withHeader 0x47000020 0 false false) = true ∧
    Out.bndReady (bothState 185) = true ∧ Out.aflErr 0 (bothState 185) = true ∧
    Out.bndReady (bothState 7) = true ∧ Out.aflErr 0 (bothState 7) = false ∧
    (6#8).toNat < (bothState 7).afl.toNat + (0#1).toNat ∧ (bothState 7).afl.toNat + (0#1).toNat ≤ (7#8).toNat ∧
    184 ≤ (184#8).toNat ∧ (183#8).toNat < 184 := by decide

theorem witness_SelectorAnswersEachPayloadIndex :
    (176#8).toNat < (Out.plLength 0 (bothState 7)).toNat ∧ (Out.plLength 0 (bothState 7)).toNat = (176#8).toNat + 1 ∧
    (Out.plLength 0 (bothState 7)).toNat = (177#8).toNat := by decide

theorem witness_BoundaryLaws :
    (183#8).toNat < 184 ∧ (0#8).toNat < (Out.plLength 0 (bothState 7)).toNat ∧ (0#8) < (1#8) ∧
    Out.idxClass 0 (bothState 7) 7 = .payload := by decide

theorem witness_AflIsReadOnlyWhenBothArePresent :
    (withHeader 0x47401114 0 false false).hdr.extractLsb' 4 2 ≠ 0b11#2 := by decide

theorem witness_ErrCodeReportsTheFirstCondition :
    (withHeader 0 0 false true).serr = true ∧ Out.fieldsValid (withHeader 0x47000000 0 false false) = true ∧
    Out.aflErr 0 (bothState 185) = true ∧ (bothState 185).serr = false ∧ Out.aflErr 0 (bothState 184) = false := by
  decide

theorem witness_NonFatalConditionsEmptyThePayload :
    Out.fieldsValid (bothState 185) = true ∧ (bothState 185).hdr.extractLsb' 4 2 = 0b11#2 ∧
    (bothState 185).aflv = true ∧ 184 < (bothState 185).afl.toNat + (0#1).toNat ∧
    Out.fieldsValid (withHeader 0x47000000 0 false false) = true ∧ State.reset.serr = false ∧
    (0x47000000#32).extractLsb' 24 8 = 0x47#8 ∧ (0x47000000#32).extractLsb' 4 2 = 0b00#2 := by decide

theorem witness_BadSyncByteEntersTheTerminalState : (0x46401114#32).extractLsb' 24 8 ≠ 0x47#8 := by decide

theorem witness_CommandsInTheTerminalState : (withHeader 0x00401115 0 false true).serr = true := rfl

theorem witness_OnlyClrAndResetLeaveTheTerminalState :
    (∃ t, step { withHeader 0x00401115 0 false true with inputs := [present 3 5] } = .next t ∧ t.serr = false) ∧
    ∀ c ∈ [present 0 0, present 1 0x47401114, present 2 7], c.rst = false ∧ c.cmd ≠ 0b11#2 :=
  ⟨⟨_, rfl, rfl⟩, by decide⟩

theorem witness_OutputsShowEveryRegister :
    SameRegisters State.reset { State.reset with inputs := [present 0 0] } := by decide

theorem witness_ResetOverridesEveryCommand :
    [Cycle.mk true 1 0x47401114 0 0] ≠ [] ∧ ∀ c ∈ [Cycle.mk true 1 0x47401114 0 0], c.rst = true := by decide

theorem witness_PassStartForgetsEarlierState :
    (present 3 0).cmd = 0b11#2 ∧ (bothState 7).inputs = State.reset.inputs ∧ bothState 7 ≠ State.reset := by decide

theorem witness_EarlyLdaflIsLost :
    (0x47000031#32).extractLsb' 4 2 = 0b11#2 ∧ ∀ c ∈ [present 0 0, present 0 0xFFFFFFFF], IsNop c := by decide

theorem witness_PacketIsVisibleThroughItsWindow :
    (∀ c ∈ [present 0 0, present 2 7], InWindow c) ∧ ∀ c ∈ [present 0 0], InWindow c ∧ IsNop c := by decide

theorem witness_WhatIsNotAHazard : (withHeader 0x47401114 0 false false).hdr.extractLsb' 4 2 ≠ 0b11#2 := by decide

theorem witness_EveryStepKeepsTheRegisterInvariants :
    RegisterInv { State.reset with inputs := [present 1 0x00401115] } ∧
    step { State.reset with inputs := [present 1 0x00401115] } = .next (withHeader 0x00401115 0 false true) ∧
    run [present 1 0x00401115] State.reset = .next (withHeader 0x00401115 0 false true) :=
  ⟨by decide, rfl, rfl⟩

theorem witness_AssembledLinesAreTheirWords :
    0xFFFFFFFF < 2 ^ 32 ∧ 0xFF < 2 ^ 8 ∧ (AsmLine.ldhdrb 0xFF 0xFF 0xFF 0xFF).wellFormed = true ∧
    (AsmLine.ldhdrb 0xFF 0xFF 0xFF 0xFF).command = some (.ldhdr 0xFFFFFFFF) := by decide

theorem witness_DirectivesDriveResetAndQueries :
    (∀ i, AsmLine.idx i ∉ [AsmLine.rst, .nop]) ∧ (∀ j, AsmLine.pj j ∉ [AsmLine.rst, .nop]) ∧
    (AsmLine.ldafl 7).command = some (.ldafl 7#8) := by
  refine ⟨fun k => ?_, fun k => ?_, rfl⟩ <;> simp

/-- A good header of each `afc`, and data byte 0 at both sides of the limit 184. -/
theorem witness_HostEmitsWholePacketsThenEnds :
    let data := fun b0 : Byte => Vector.replicate 184 b0
    let hw := [0x47000001#32, 0x47000011#32, 0x47000021#32, 0x47000031#32]
    (∀ h ∈ hw, h.extractLsb' 24 8 = 0x47#8) ∧ hw.map (·.extractLsb' 4 2) = [0b00#2, 0b01#2, 0b10#2, 0b11#2] ∧
    (data 184#8)[0].toNat + (0#1).toNat ≤ 184 ∧ 184 < (data 184#8)[0].toNat + (1#1).toNat ∧
    [(0x47000031#32, data 184#8, [(0#8, 0#8)])][0]? = some (0x47000031#32, data 184#8, [(0#8, 0#8)]) ∧
    (PacketReads.mk .endOfInput .endOfInput []).header = .endOfInput ∧
    (PacketReads.mk (.short 0 [0, 0]) .endOfInput []).header = .short 0 [0, 0] ∧
    (PacketReads.mk (.failed 1) .endOfInput []).header = .failed 1 ∧
    (PacketReads.mk (.full 0x46 0 0 0) .endOfInput []).header = .full 0x46 0 0 0 ∧ (0x46#8) ≠ 0x47#8 ∧
    (PacketReads.mk (.full 0x47 0 0 0) .endOfInput []).payload = .endOfInput ∧
    (PacketReads.mk (.full 0x47 0 0 0) (.short 0 []) []).payload = .short 0 [] ∧
    (PacketReads.mk (.full 0x47 0 0 0) (.failed 1) []).payload = .failed 1 := by
  refine ⟨by simp, by simp, by simp, by simp, rfl, by simp⟩

/-- Both values of `fields_valid`; a reset cycle, a CLR cycle, and an LDAFL that loads no header. -/
theorem witness_NoFlagIsTakenUntilAHeaderIsLoaded :
    Out.fieldsValid (bothState 7) = true ∧ Out.fieldsValid State.reset = false ∧
    (⟨true, 1#2, 0#32, 0#8, 0#8⟩ : Cycle).rst = true ∧ (present 3 5).command = some .clr ∧
    ∀ d ∈ [present 2 7, present 0 1], d.header = none := by decide

end Sys2Proof.Tests
end

section
/-! PROOF. The clock cycle of 00_scope.md: with `rst` low, a step is the execution of its cycle's command (O6). -/

namespace Sys2Proof.Machine

/-- R73, R76: the edge of a cycle with `rst = 0` executes the command of the cycle's word. -/
theorem clockEdge_of_rst_low {c : Cycle} (h : c.rst = false) (s : State) : clockEdge c s = exec (decode c.word) s := by
  simp [clockEdge, h]

/-- Settles O6: the step is its cycle's edge, and with `rst` low that edge executes the decoded command. -/
theorem stepExecutesTheDecodedCommand : Obligations.StepExecutesTheDecodedCommand := by
  intro s c rest i hinputs hrst _ hdecode
  have hword : decode c.word = i := hdecode
  rw [step_cons hinputs, clockEdge_of_rst_low hrst, hword]

end Sys2Proof.Machine
end

section
/-! PROOF. Facts about one edge that the statements of 10_state.md share: the edge of a cycle by its command, the registers apart from
the host's cycles, and a run continued. -/

namespace Sys2Proof.Machine

/-! ### The edge of a cycle, by the command it executes -/

/-- R240: the edge of a cycle that executes no command is reset. -/
theorem clockEdge_of_no_command {c : Cycle} (h : c.command = none) (s : State) :
    clockEdge c s = .next (resetRegisters s) := by
  cases hr : c.rst with
  | true => simp [clockEdge, hr]
  | false => simp [Cycle.command, hr] at h

/-- R73: the edge of a cycle that executes a command is that command. -/
theorem clockEdge_of_command {c : Cycle} {i : Instr} (h : c.command = some i) (s : State) : clockEdge c s = exec i s := by
  cases hr : c.rst with
  | true => simp [Cycle.command, hr] at h
  | false =>
    have hi : decode c.word = i := by simpa [Cycle.command, hr] using h
    rw [clockEdge_of_rst_low hr, hi]

/-- R73: the command code 11 is CLR, whatever `data`. -/
theorem decode_word_of_cmd_clr {c : Cycle} (h : c.cmd = 0b11#2) : decode c.word = .clr := by
  simp [decode, Cycle.word, h]

/-- R240, R171: a cycle of reset or CLR leaves every register at its reset value, from every state. -/
theorem clockEdge_of_rst_or_clr {c : Cycle} (h : c.rst = true ∨ c.cmd = 0b11#2) (s : State) :
    clockEdge c s = .next (resetRegisters s) := by
  cases hr : c.rst with
  | true => exact clockEdge_of_no_command (by simp [Cycle.command, hr]) s
  | false =>
    have hcmd : c.cmd = 0b11#2 := by simpa [hr] using h
    rw [clockEdge_of_rst_low hr, decode_word_of_cmd_clr hcmd]; rfl

/-! ### The registers apart from the host's cycles -/

/-- States with the same registers differ in the host's cycles at most. -/
theorem sameRegisters_iff {s t : State} : SameRegisters s t ↔ t = { s with inputs := t.inputs } := by
  constructor
  · rintro ⟨hhdr, hhv, hafl, haflv, hserr⟩
    rw [hhdr, hhv, hafl, haflv, hserr]
  · intro h
    rw [h]
    exact ⟨rfl, rfl, rfl, rfl, rfl⟩

/-- R240: the registers after reset are those of the reset state, from every state. -/
theorem resetRegisters_sameRegisters (s : State) : SameRegisters (resetRegisters s) State.reset :=
  ⟨rfl, rfl, rfl, rfl, rfl⟩

/-- R28: a command does the same to the registers whatever cycles the host still holds. -/
theorem exec_with_inputs {i : Instr} {s t : State} (h : exec i s = .next t) (rest : List Cycle) :
    exec i { s with inputs := rest } = .next { t with inputs := rest } := by
  obtain ⟨rfl, rfl⟩ | ⟨hw, rfl, rfl⟩ | ⟨a, rfl, rfl⟩ | ⟨rfl, rfl⟩ := exec_cases h
  case inr.inl => exact execLdhdr_eq hw _
  all_goals rfl

/-- R12, R29: no output port reads the host's remaining cycles. -/
theorem outputs_with_inputs (bias : Config.AfLenBias) (s : State) (rest : List Cycle) (idx pj : Byte) :
    outputs bias { s with inputs := rest } idx pj = outputs bias s idx pj := rfl

/-! ### A run continued -/

/-- R57: the rest of a run acts on the state its first part left. -/
theorem run_append {cs : List Cycle} {s t : State} (h : run cs s = .next t) (ds : List Cycle) :
    run (cs ++ ds) s = run ds t := by
  induction cs generalizing s with
  | nil => cases h; rfl
  | cons c cs ih =>
    obtain ⟨u, hu⟩ := clockEdge_next c s
    rw [run_cons hu] at h
    rw [List.cons_append, run_cons hu, ih h]

end Sys2Proof.Machine
end

section
/-! PROOF. The register invariants of R27 (O48, O49). -/

namespace Sys2Proof.Machine

/-- R27 of the registers R34 gives, whatever cycles the host still holds. -/
theorem resetRegisters_registerInv (s : State) : RegisterInv (resetRegisters s) := by
  simp [RegisterInv]

/-- R27 across a command. LDHDR gives (a) and (b) together: it raises HV, and SERR where the new top byte is bad (R100). -/
theorem exec_keeps_registerInv {i : Instr} {s t : State} (hs : RegisterInv s) (h : exec i s = .next t) :
    RegisterInv t := by
  obtain ⟨-, rfl⟩ | ⟨hw, -, rfl⟩ | ⟨a, -, rfl⟩ | ⟨-, rfl⟩ := exec_cases h
  · exact hs
  · refine ⟨fun _ => rfl, ?_, fun _ => rfl, nofun⟩
    rintro ⟨-, hbad⟩
    simp [badSync_eq, hbad]
  · obtain ⟨ha, hb, -, hd⟩ := hs
    exact ⟨ha, hb, nofun, hd⟩
  · exact resetRegisters_registerInv s

/-- R27 across an edge, be it reset or a command. -/
theorem clockEdge_keeps_registerInv {c : Cycle} {s t : State} (hs : RegisterInv s) (h : clockEdge c s = .next t) :
    RegisterInv t := by
  obtain ⟨-, rfl⟩ | ⟨-, he⟩ := clockEdge_cases h
  · exact resetRegisters_registerInv s
  · exact exec_keeps_registerInv hs he

/-- Settles O48: the reset state is what reset leaves of itself. -/
theorem resetMeetsTheRegisterInvariants : Obligations.ResetMeetsTheRegisterInvariants :=
  resetRegisters_registerInv State.reset

/-- Settles O49: every edge keeps R27, and a step or a run is made of edges; LDAFL right after reset reaches `HV = 0` with
`AFLV = 1`. -/
theorem everyStepKeepsTheRegisterInvariants : Obligations.EveryStepKeepsTheRegisterInvariants := by
  refine ⟨fun s t hs hstep => ?_, fun cs t hrun => ?_, ?_⟩
  · obtain ⟨c, rest, -, hedge⟩ := step_cases hstep
    exact clockEdge_keeps_registerInv (s := { s with inputs := rest }) hs hedge
  · exact run_keeps (fun _ _ _ => clockEdge_keeps_registerInv) resetMeetsTheRegisterInvariants hrun
  · exact ⟨[cycleOf (.ldafl 7#8) 0#8 0#8], setAfl 7#8 State.reset, rfl, rfl, rfl⟩

end Sys2Proof.Machine
end

section
/-! PROOF. What each register records: the frame of the commands (O16), the reset values (O42) and the history of the pass (O17). -/

namespace Sys2Proof.Machine

/-- Settles O16, by what each command leaves: LDHDR can only raise SERR, LDAFL and NOP keep it. -/
theorem registersAreWrittenOnlyByTheirCommands : Obligations.RegistersAreWrittenOnlyByTheirCommands := by
  intro i s t h
  refine ⟨exec_keeps_inputs h, ?_⟩
  obtain ⟨rfl, rfl⟩ | ⟨hw, rfl, rfl⟩ | ⟨a, rfl, rfl⟩ | ⟨rfl, rfl⟩ := exec_cases h
  · simp
  · simp +contextual
  · simp +contextual
  · simp

/-- Settles O42: reset and CLR leave the registers of the reset state. -/
theorem resetValuesOfEveryRegister : Obligations.ResetValuesOfEveryRegister := by
  refine ⟨⟨rfl, rfl, rfl, rfl, rfl⟩, fun s c h => ⟨resetRegisters s, ?_, resetRegisters_sameRegisters s⟩⟩
  rw [run_cons (clockEdge_of_rst_or_clr h s), run_nil]

/-! ### The history functions after one more cycle -/

theorem thisPass_append (cs : List Cycle) (c : Cycle) :
    thisPass (cs ++ [c]) = if c.beginsPass then [] else c :: thisPass cs := by
  cases h : c.beginsPass <;> simp [thisPass, h]

theorem thisPacket_append (cs : List Cycle) (c : Cycle) :
    thisPacket (cs ++ [c]) = if c.beginsPass || c.header.isSome then [] else c :: thisPacket cs := by
  rw [thisPacket, thisPass_append]
  cases c.beginsPass <;> cases h : c.header <;> simp [thisPacket, h]

/-- The registers as R22 to R26 define them from the cycles presented since reset. -/
def historyState (cs : List Cycle) : State :=
  { hdr := (lastHeader cs).getD 0x00000000#32, hv := (lastHeader cs).isSome, afl := (lastAfl cs).getD 0x00#8,
    aflv := (lastAfl cs).isSome, serr := sawBadSync cs, inputs := [] }

/-- A cycle that begins a pass leaves nothing of the history. -/
theorem historyState_of_beginsPass {c : Cycle} (h : c.beginsPass = true) (cs : List Cycle) :
    historyState (cs ++ [c]) = State.reset := by
  simp [historyState, lastHeader, lastAfl, sawBadSync, thisPass_append, thisPacket_append, h, State.reset]

theorem historyState_of_nop {c : Cycle} (h : c.command = some .nop) (cs : List Cycle) :
    historyState (cs ++ [c]) = historyState cs := by
  have hbegins : c.beginsPass = false := by simp [Cycle.beginsPass, h]
  have hheader : c.header = none := by simp [Cycle.header, h]
  have hafl : c.aflByte = none := by simp [Cycle.aflByte, h]
  simp [historyState, lastHeader, lastAfl, sawBadSync, thisPass_append, thisPacket_append, hbegins, hheader, hafl]

theorem historyState_of_ldhdr {c : Cycle} {hw : HeaderWord} (h : c.command = some (.ldhdr hw)) (cs : List Cycle) :
    historyState (cs ++ [c]) =
      { hdr := hw, hv := true, afl := 0x00#8, aflv := false, serr := (historyState cs).serr || badSync hw, inputs := [] } := by
  have hbegins : c.beginsPass = false := by simp [Cycle.beginsPass, h]
  have hheader : c.header = some hw := by simp [Cycle.header, h]
  simp [historyState, lastHeader, lastAfl, sawBadSync, thisPass_append, thisPacket_append, hbegins, hheader, badSync_eq,
    Bool.or_comm]

theorem historyState_of_ldafl {c : Cycle} {a : Byte} (h : c.command = some (.ldafl a)) (cs : List Cycle) :
    historyState (cs ++ [c]) = setAfl a (historyState cs) := by
  have hbegins : c.beginsPass = false := by simp [Cycle.beginsPass, h]
  have hheader : c.header = none := by simp [Cycle.header, h]
  have hafl : c.aflByte = some a := by simp [Cycle.aflByte, h]
  simp [historyState, lastHeader, lastAfl, sawBadSync, thisPass_append, thisPacket_append, hbegins, hheader, hafl, setAfl]

/-- One edge writes one more cycle into the history. -/
theorem clockEdge_historyState (cs : List Cycle) (c : Cycle) :
    clockEdge c (historyState cs) = .next (historyState (cs ++ [c])) := by
  cases h : c.command with
  | none =>
    rw [clockEdge_of_no_command h, historyState_of_beginsPass (by simp [Cycle.beginsPass, h])]; rfl
  | some i =>
    rw [clockEdge_of_command h]
    cases i with
    | nop => rw [historyState_of_nop h]; rfl
    | ldhdr hw => rw [historyState_of_ldhdr h]; exact execLdhdr_eq hw _
    | ldafl a => rw [historyState_of_ldafl h]; rfl
    | clr => rw [historyState_of_beginsPass (by simp [Cycle.beginsPass, h])]; rfl

/-- Settles O17, by induction on the cycles, the newest last. -/
theorem registersRecordTheHistoryOfThePass : Obligations.RegistersRecordTheHistoryOfThePass := by
  intro cs
  change run cs State.reset = .next (historyState cs)
  induction cs using List.reverseRecOn with
  | nil => rfl
  | append_singleton cs c ih => rw [run_append ih, run_cons (clockEdge_historyState cs c), run_nil]

end Sys2Proof.Machine
end

section
/-! PROOF. The outputs as a view of the registers: the status vector (O35), and that the outputs determine the registers (O41). -/

namespace Sys2Proof.Machine

open Sys2Proof.Config

/-- R77, R113: the header word is the concatenation of its fields. -/
theorem packFields_headerFields (hw : HeaderWord) : packFields (headerFields hw) = hw := by
  simp only [packFields, headerFields, syncByte_eq_slice, tei_eq_slice, pusi_eq_slice, tp_eq_slice, pid_eq_slice,
    tsc_eq_slice, afc_eq_slice, cc_eq_slice]
  iterate 7 rw [BitVec.extractLsb'_append_extractLsb'_eq_extractLsb' (start₁ := 0) (by decide)]
  exact BitVec.extractLsb'_eq_self

/-- R29: the field ports show `headerFields` of HDR. -/
theorem headerFields_eq_of_outputs_eq {bias : AfLenBias} {s t : State} {idx pj : Byte}
    (h : outputs bias s idx pj = outputs bias t idx pj) : headerFields s.hdr = headerFields t.hdr := by
  simp only [outputs, Outputs.mk.injEq] at h
  simp only [headerFields, h]

/-- R33: the ports of one cycle already show all five registers. -/
theorem sameRegisters_of_outputs_eq {bias : AfLenBias} {s t : State} {idx pj : Byte}
    (h : outputs bias s idx pj = outputs bias t idx pj) : SameRegisters s t := by
  have hhdr : s.hdr = t.hdr := by
    rw [← packFields_headerFields s.hdr, headerFields_eq_of_outputs_eq h, packFields_headerFields]
  exact ⟨hhdr, congrArg Outputs.hdrLoaded h, congrArg Outputs.aflOut h, congrArg Outputs.aflLoaded h,
    congrArg Outputs.term h⟩

/-- Settles O41: one cycle's ports show every register, and neither the ports nor a command read anything else. -/
theorem outputsShowEveryRegister : Obligations.OutputsShowEveryRegister := by
  refine fun bias s t => ⟨⟨fun h => sameRegisters_of_outputs_eq (h 0#8 0#8), fun h idx pj => ?_⟩, fun h i => ?_⟩
  · rw [sameRegisters_iff.mp h]
    exact (outputs_with_inputs bias s t.inputs idx pj).symm
  · obtain ⟨s', hs⟩ := exec_next i s
    refine ⟨s', { s' with inputs := t.inputs }, hs, ?_, rfl, rfl, rfl, rfl, rfl⟩
    rw [sameRegisters_iff.mp h]
    exact exec_with_inputs hs t.inputs

/-- The bits of six flags and a code packed as R30 packs `status`. -/
theorem packed_status_bits (e : BitVec 2) (b5 b4 b3 b2 b1 b0 : Bool) :
    let v : BitVec 8 := e ++ (BitVec.ofBool b5 ++ (BitVec.ofBool b4 ++ (BitVec.ofBool b3 ++ (BitVec.ofBool b2 ++
      (BitVec.ofBool b1 ++ BitVec.ofBool b0)))))
    v.getLsbD 0 = b0 ∧ v.getLsbD 1 = b1 ∧ v.getLsbD 2 = b2 ∧ v.getLsbD 3 = b3 ∧ v.getLsbD 4 = b4 ∧ v.getLsbD 5 = b5 ∧
      v.extractLsb' 6 2 = e := by
  revert e b5 b4 b3 b2 b1 b0
  decide

/-- R30 at reset: no flag is set and no condition holds, for both biases. -/
theorem status_reset (bias : AfLenBias) : Out.status bias State.reset = 0x00#8 := by
  have hfields : Out.fieldsValid State.reset = false := rfl
  have hready : Out.bndReady State.reset = false := rfl
  have herr : Out.errCode bias State.reset = .none := by simp [Out.errCode, Out.aflErr, hfields]
  rw [Out.status, herr, hfields, hready]
  rfl

/-- Settles O35: `status` is packed from the other ports as R30 lists them. -/
theorem statusVectorFields : Obligations.StatusVectorFields :=
  ⟨fun _ _ _ _ => packed_status_bits _ _ _ _ _ _ _, fun bias _ _ => status_reset bias⟩

end Sys2Proof.Machine
end

section
/-! PROOF. The command a step executes is the word presented to it (O7; R21, R28). -/

namespace Sys2Proof.Machine

@[simp] theorem presentIn_word (w : CommandWord) (c : Cycle) : (presentIn w c).word = w := commandWord_fields w

@[simp] theorem presentAlone_word (w : CommandWord) : (presentAlone w).word = w := commandWord_fields w

/-- A 34-bit word is placed as it is, however few bits the table gives it. -/
theorem withFetchWord_toNat (s : State) (nbits : Nat) (w : CommandWord) :
    s.withFetchWord nbits w.toNat = presentWord w s := by
  have hle : 2 ^ 34 ≤ 2 ^ max nbits 34 := Nat.pow_le_pow_right (by decide) (Nat.le_max_right ..)
  have hlt : w.toNat < 2 ^ max nbits 34 := Nat.lt_of_lt_of_le w.isLt hle
  rw [State.withFetchWord, Nat.mod_eq_of_lt hlt, BitVec.ofNat_toNat, BitVec.setWidth_eq]

/-- The current cycle presents the placed word with `rst` low, and the cycles after it are kept. -/
theorem presentWord_cases (w : CommandWord) (s : State) :
    ∃ c, presentWord w s = { s with inputs := c :: s.inputs.tail } ∧ c.rst = false ∧ c.word = w := by
  unfold presentWord
  cases s.inputs with
  | nil => exact ⟨presentAlone w, rfl, rfl, presentAlone_word w⟩
  | cons c rest => exact ⟨presentIn w c, rfl, rfl, presentIn_word w c⟩

/-- Settles O7: the step takes the cycle that carries the placed word, and its edge executes it. -/
theorem placedWordIsTheNextCommand : Obligations.PlacedWordIsTheNextCommand := by
  intro s nbits w
  obtain ⟨c, hplaced, hrst, hword⟩ := presentWord_cases w s
  have hinputs : (presentWord w s).inputs = c :: s.inputs.tail := by rw [hplaced]
  rw [withFetchWord_toNat, step_cons hinputs, clockEdge_of_rst_low hrst, hword, hplaced]

end Sys2Proof.Machine
end

section
/-! PROOF. The run of 20_memory.md: a presented cycle completes (O8), and steps compose to runs (O9). -/

namespace Sys2Proof.Machine

/-- Settles O8: a step with a current cycle is that cycle's edge, which completes and keeps the cycles after it. -/
theorem everyPresentedCycleCompletes : Obligations.EveryPresentedCycleCompletes := by
  refine fun s => ⟨fun c rest hinputs => ?_, step_nil⟩
  obtain ⟨t, hedge⟩ := clockEdge_next c { s with inputs := rest }
  exact ⟨t, (step_cons hinputs).trans hedge, clockEdge_keeps_inputs hedge⟩

/-- R28: an edge does the same to the registers whatever cycles the host still holds. -/
theorem clockEdge_with_inputs {c : Cycle} {s t : State} (h : clockEdge c s = .next t) (rest : List Cycle) :
    clockEdge c { s with inputs := rest } = .next { t with inputs := rest } := by
  obtain ⟨hrst, rfl⟩ | ⟨hrst, hexec⟩ := clockEdge_cases h
  · simp [clockEdge, hrst, resetRegisters]
  · rw [clockEdge_of_rst_low hrst, exec_with_inputs hexec]

/-- One step of the host's bounded run. -/
theorem core_run_succ {s t : State} (h : step s = .next t) (n : Nat) :
    Host.Core.run core (n + 1) s = Host.Core.run core n t := by
  have hcore : core.step s = .next t := h
  simp [Host.Core.run, hcore]

/-- R57: as many steps as there are cycles `cs` at the head of the host's list are the run of `cs`. -/
theorem core_run_length (cs rest : List Cycle) (s : State) :
    Host.Core.run core cs.length { s with inputs := cs ++ rest } = run cs { s with inputs := rest } := by
  induction cs generalizing s with
  | nil => rfl
  | cons c cs ih =>
    obtain ⟨t, hedge⟩ := clockEdge_next c s
    have hstep : step { s with inputs := c :: (cs ++ rest) } = .next { t with inputs := cs ++ rest } :=
      (step_cons rfl).trans (clockEdge_with_inputs hedge (cs ++ rest))
    exact (core_run_succ hstep cs.length).trans <|
      (ih t).trans (run_cons (clockEdge_with_inputs hedge rest) cs).symm

/-- Settles O9: the steps are the run by induction on its cycles; every run completes and can be continued. -/
theorem runIsTheCompositionOfItsCycles : Obligations.RunIsTheCompositionOfItsCycles := by
  intro cs ds s
  obtain ⟨t, hrun⟩ := run_next cs s
  exact ⟨core_run_length cs s.inputs s, t, hrun, run_append hrun ds⟩

end Sys2Proof.Machine
end

section
/-! PROOF. The bytes of 20_memory.md: the stream bytes on the field outputs (O19) and the data byte index map (O34). -/

namespace Sys2Proof.Machine

open Sys2Proof.Config

/-! ### A slice of the header word that stays within one stream byte (R51) -/

section
variable (b0 b1 b2 b3 : Byte) {start len : Nat}

theorem slice_ofBytes_b3 (h : start + len ≤ 8) :
    (Header.ofBytes b0 b1 b2 b3).extractLsb' start len = b3.extractLsb' start len :=
  BitVec.extractLsb'_append_eq_of_add_le h

/-- Above b3, the header word is the three bytes before it. -/
theorem slice_ofBytes_above_b3 :
    (Header.ofBytes b0 b1 b2 b3).extractLsb' (8 + start) len = (b0 ++ b1 ++ b2).extractLsb' start len := by
  rw [Header.ofBytes, BitVec.extractLsb'_append_eq_of_le (Nat.le_add_right 8 start), Nat.add_sub_cancel_left]

theorem slice_ofBytes_b1 (h : start + len ≤ 8) :
    (Header.ofBytes b0 b1 b2 b3).extractLsb' (8 + (8 + start)) len = b1.extractLsb' start len := by
  rw [slice_ofBytes_above_b3, BitVec.extractLsb'_append_eq_of_le (Nat.le_add_right 8 start), Nat.add_sub_cancel_left,
    BitVec.extractLsb'_append_eq_of_add_le h]

theorem slice_ofBytes_b0 : (Header.ofBytes b0 b1 b2 b3).extractLsb' 24 8 = b0 := by
  rw [slice_ofBytes_above_b3 (start := 16), BitVec.extractLsb'_append_eq_of_le (by decide)]
  exact BitVec.extractLsb'_append_eq_left

/-- R108: the PID slice spans b1 and b2. -/
theorem slice_ofBytes_pid : (Header.ofBytes b0 b1 b2 b3).extractLsb' 8 13 = b1.extractLsb' 0 5 ++ b2 := by
  rw [← BitVec.extractLsb'_append_extractLsb'_eq_extractLsb' (start₁ := 8) (len₁ := 8) (len₂ := 5) rfl,
    slice_ofBytes_b1 (start := 0) b0 b1 b2 b3 (by decide), slice_ofBytes_above_b3 (start := 0),
    BitVec.extractLsb'_append_eq_right]

/-- R51, R77: the fields of the header word of four stream bytes. -/
theorem headerFields_ofBytes :
    headerFields (Header.ofBytes b0 b1 b2 b3) =
      { syncByte := b0, tei := b1.extractLsb' 7 1, pusi := b1.extractLsb' 6 1, tp := b1.extractLsb' 5 1,
        pid := b1.extractLsb' 0 5 ++ b2, tsc := b3.extractLsb' 6 2, afc := b3.extractLsb' 4 2,
        cc := b3.extractLsb' 0 4 } := by
  have hb1 (start len : Nat) (h : start + len ≤ 8) := slice_ofBytes_b1 b0 b1 b2 b3 h
  have hb3 (start len : Nat) (h : start + len ≤ 8) := slice_ofBytes_b3 b0 b1 b2 b3 h
  rw [headerFields, syncByte_eq_slice, tei_eq_slice, pusi_eq_slice, tp_eq_slice, pid_eq_slice, tsc_eq_slice,
    afc_eq_slice, cc_eq_slice, slice_ofBytes_b0, slice_ofBytes_pid, hb1 7 1 (by decide), hb1 6 1 (by decide),
    hb1 5 1 (by decide), hb3 6 2 (by decide), hb3 4 2 (by decide), hb3 0 4 (by decide)]

end

/-- Settles O19: LDHDR leaves the header word of the four bytes in HDR, and the field ports show its fields. -/
theorem streamBytesAppearOnTheFieldOutputs : Obligations.StreamBytesAppearOnTheFieldOutputs := by
  intro b0 b1 b2 b3 s
  refine ⟨_, execLdhdr_eq (Header.ofBytes b0 b1 b2 b3) s, rfl, fun bias idx pj => ?_⟩
  have hfields := headerFields_ofBytes b0 b1 b2 b3
  rw [headerFields, HeaderFields.mk.injEq] at hfields
  exact hfields

/-! ### The data byte index map (R55) -/

theorem packetByteOf_of_lt {idx : Byte} (h : idx.toNat < 184) : packetByteOf idx = some (4 + idx.toNat) := if_pos h

theorem packetByteOf_of_ge {idx : Byte} (h : 184 ≤ idx.toNat) : packetByteOf idx = none := if_neg (Nat.not_lt.mpr h)

/-- R146: an index past the packet's data bytes has class NONE in every state. -/
theorem idxClass_of_ge (bias : AfLenBias) (s : State) {idx : Byte} (h : 184 ≤ idx.toNat) :
    Out.idxClass bias s idx = .none := by
  simp [Out.idxClass, dataBytes, h]

/-- Settles O34: both answers are decided by the comparison of the index with 184. -/
theorem indexesNameThePacketBytes : Obligations.IndexesNameThePacketBytes :=
  fun bias s _ => ⟨fun h => packetByteOf_of_lt (Nat.lt_succ_of_le h),
    fun h => ⟨packetByteOf_of_ge h, idxClass_of_ge bias s h⟩⟩

end Sys2Proof.Machine
end

section
/-! PROOF. The command word of 30_encoding.md: the codec (O1, O2), the opcode map (O3) and the ignored bits (O4, O5). -/

namespace Sys2Proof

/-! ### The decoder, by command code (R73), and the operands it reads (R72) -/

section
variable {w : CommandWord}

theorem decode_of_cmd_nop (h : cmdField w = 0b00#2) : decode w = .nop := by simp [decode, h]

theorem decode_of_cmd_ldhdr (h : cmdField w = 0b01#2) : decode w = .ldhdr (dataField w) := by
  simp [decode, operandW, h]

theorem decode_of_cmd_ldafl (h : cmdField w = 0b10#2) : decode w = .ldafl (operandB (dataField w)) := by
  simp [decode, h]

theorem decode_of_cmd_clr (h : cmdField w = 0b11#2) : decode w = .clr := by simp [decode, h]

end

/-- R72: format B's operand is the low byte of the word itself. -/
theorem operandB_dataField (w : CommandWord) : operandB (dataField w) = w.extractLsb' 0 8 :=
  BitVec.extractLsb'_extractLsb'_of_le (by decide)

@[simp] theorem operandB_zeros_append (a : Byte) : operandB (0#24 ++ a) = a := BitVec.extractLsb'_append_eq_right

/-! ### Decode of encode -/

/-- R72, R73, R81: the word of a command decodes to it, with its operand at every value. -/
theorem decode_encode (i : Instr) : decode (encode i) = i := by
  cases i with
  | nop => exact decode_of_cmd_nop (cmdField_commandWord ..)
  | ldhdr hw => rw [encode, decode_of_cmd_ldhdr (cmdField_commandWord ..), dataField_commandWord]
  | ldafl a =>
    rw [encode, decode_of_cmd_ldafl (cmdField_commandWord ..), dataField_commandWord, operandB_zeros_append]
  | clr => exact decode_of_cmd_clr (cmdField_commandWord ..)

/-- R75: the number of any command word is accepted and decodes as the word. -/
theorem decodeNat_toNat (w : CommandWord) : decodeNat w.toNat = .ok (decode w) := by
  rw [decodeNat, if_pos w.isLt, BitVec.ofNat_toNat, BitVec.setWidth_eq]

/-- R70: however few bits a table row is given, its word keeps all 34. -/
theorem decodeTableWord_toNat (nbits : Nat) (w : CommandWord) : decodeTableWord nbits w.toNat = some (decode w) := by
  have hlt : w.toNat < 2 ^ max nbits 34 :=
    Nat.lt_of_lt_of_le w.isLt (Nat.pow_le_pow_right (by decide) (Nat.le_max_right ..))
  rw [decodeTableWord, Nat.mod_eq_of_lt hlt, decodeNat_toNat]

/-- Settles O2: the decoder undoes the encoder, and reads a table row's number as the word it numbers. -/
theorem encodedCommandDecodesToItself : Obligations.EncodedCommandDecodesToItself :=
  fun i nbits _ => ⟨decode_encode i, by rw [decodeTableWord_toNat, decode_encode]⟩

/-- Settles O1: fixed words, written out from R70, R71 and R73. -/
theorem writtenWordsDecodeToTheirCommands : Obligations.WrittenWordsDecodeToTheirCommands := by
  unfold Obligations.WrittenWordsDecodeToTheirCommands
  decide

/-! ### The opcode map -/

/-- R73: what the mask keeps of a word is its `cmd`. -/
theorem and_mask_eq (w : CommandWord) : w &&& 0x300000000#34 = commandWord (cmdField w) 0#32 := by
  conv_lhs => rw [← commandWord_fields w]
  exact commandWord_and_mask ..

/-- R73: every row of the map masks the same bits, so a row fits by its `cmd`. -/
theorem fits_eq_of_mem {r : OpcodeRow} (hr : r ∈ opcodeTable) (w : CommandWord) :
    r.fits w = (commandWord (cmdField w) 0#32 == r.pattern) := by
  have hmask : ∀ r ∈ opcodeTable, r.mask = 0x300000000#34 := by decide
  rw [OpcodeRow.fits, hmask r hr, and_mask_eq]

/-- R73: the rows that fit a word are those whose pattern is its `cmd`. -/
theorem filter_fits_eq (w : CommandWord) :
    opcodeTable.filter (·.fits w) = opcodeTable.filter (commandWord (cmdField w) 0#32 == ·.pattern) :=
  List.filter_congr fun _ hr => fits_eq_of_mem hr w

/-- R73, R75: the one row that fits a word is named like the command decoded. -/
theorem mnemonics_of_fitting_rows (w : CommandWord) :
    (opcodeTable.filter (·.fits w)).map (·.mnemonic) = [(decode w).mnemonic] := by
  rw [filter_fits_eq]
  obtain h | h | h | h := Machine.afc_cases (cmdField w)
  · rw [decode_of_cmd_nop h, h]; rfl
  · rw [decode_of_cmd_ldhdr h, h]; rfl
  · rw [decode_of_cmd_ldafl h, h]; rfl
  · rw [decode_of_cmd_clr h, h]; rfl

/-- Settles O3: `cmd` selects the row, the command and its operand, and is all that the mask keeps. -/
theorem everyWordIsExactlyOneCommand : Obligations.EveryWordIsExactlyOneCommand := by
  intro w
  have hmask {cmd : BitVec 2} (h : cmdField w = cmd) : w &&& 0x300000000#34 = commandWord cmd 0#32 := by
    rw [and_mask_eq, h]
  exact ⟨mnemonics_of_fitting_rows w,
    fun h => ⟨decode_of_cmd_nop h, hmask h⟩,
    fun h => ⟨decode_of_cmd_ldhdr h, hmask h⟩,
    fun h => ⟨(decode_of_cmd_ldafl h).trans (congrArg _ (operandB_dataField w)), hmask h⟩,
    fun h => ⟨decode_of_cmd_clr h, hmask h⟩⟩

/-! ### The ignored bits -/

/-- R73: the command decoded still shows the word's `cmd`. -/
theorem cmdField_encode_decode (w : CommandWord) : cmdField (encode (decode w)) = cmdField w := by
  obtain h | h | h | h := Machine.afc_cases (cmdField w)
  · rw [decode_of_cmd_nop h, h]; rfl
  · rw [decode_of_cmd_ldhdr h, h]; exact cmdField_commandWord ..
  · rw [decode_of_cmd_ldafl h, h]; exact cmdField_commandWord ..
  · rw [decode_of_cmd_clr h, h]; rfl

/-- R71, R74: the decoder tells two words apart by `cmd` and by the operand `cmd` selects, and by nothing else. -/
theorem decode_eq_decode_iff (v w : CommandWord) :
    decode v = decode w ↔ cmdField v = cmdField w ∧ (cmdField v = 0b01#2 → dataField v = dataField w) ∧
      (cmdField v = 0b10#2 → operandB (dataField v) = operandB (dataField w)) := by
  by_cases hcmd : cmdField w = cmdField v
  · obtain h | h | h | h := Machine.afc_cases (cmdField v) <;> rw [h] at hcmd
    · simp [decode_of_cmd_nop, h, hcmd]
    · simp [decode_of_cmd_ldhdr, h, hcmd]
    · simp [decode_of_cmd_ldafl, h, hcmd]
    · simp [decode_of_cmd_clr, h, hcmd]
  · have hne : decode v ≠ decode w := fun h =>
      hcmd (by rw [← cmdField_encode_decode w, ← h, cmdField_encode_decode])
    exact iff_of_false hne fun h => hcmd h.1.symm

/-- Settles O4: the bits the decoder tells words apart by, as slices of the word. -/
theorem wordsAgreeUpToIgnoredBits : Obligations.WordsAgreeUpToIgnoredBits := by
  intro v w
  rw [decode_eq_decode_iff, operandB_dataField, operandB_dataField]
  rfl

end Sys2Proof

namespace Sys2Proof.Machine

/-- R74: ignored bits do not change the command a cycle presents. -/
theorem decode_word_of_sameButIgnoredBits {c d : Cycle} (h : SameButIgnoredBits c d) : decode c.word = decode d.word := by
  obtain ⟨-, -, -, hcmd, hW, hB⟩ := h
  simp only [decode_eq_decode_iff, Cycle.word, cmdField_commandWord, dataField_commandWord]
  exact ⟨hcmd, hW, hB⟩

/-- R74: ignored bits do not change what an edge does. -/
theorem clockEdge_of_sameButIgnoredBits {c d : Cycle} (h : SameButIgnoredBits c d) (s : State) :
    clockEdge c s = clockEdge d s := by
  rw [clockEdge, clockEdge, decode_word_of_sameButIgnoredBits h, h.1]

/-- Settles O5, by induction on the two runs: their edges do the same, and their cycles carry the same queries. -/
theorem ignoredBitsChangeNoStateAndNoOutput : Obligations.IgnoredBitsChangeNoStateAndNoOutput := by
  intro bias cs ds s h
  induction h generalizing s with
  | nil => exact ⟨rfl, rfl⟩
  | @cons c d cs ds hcd _ ih =>
    have hedge := clockEdge_of_sameButIgnoredBits hcd s
    obtain ⟨t, ht⟩ := clockEdge_next d s
    obtain ⟨hrun, hobserve⟩ := ih t
    obtain ⟨-, hidx, hpj, -⟩ := hcd
    simp only [run, observe, hedge, ht, hidx, hpj, hrun, hobserve, and_self]

end Sys2Proof.Machine
end

section
/-! PROOF. The header word of 30_encoding.md: the masks of R78 (O21) and what `afc` says (O23). -/

namespace Sys2Proof.Machine

theorem mem_headerField_all (f : HeaderField) : f ∈ HeaderField.all := by cases f <;> decide

/-- R114: a masked and shifted word is at most the shifted mask. -/
theorem rawField_toNat_le (f : HeaderField) (hw : HeaderWord) : (rawField f hw).toNat ≤ f.mask.toNat >>> f.shift := by
  rw [rawField, BitVec.toNat_ushiftRight, BitVec.toNat_and, Nat.shiftRight_eq_div_pow, Nat.shiftRight_eq_div_pow]
  exact Nat.div_le_div_right Nat.and_le_right

/-- R78: each shifted mask fits the field's width. -/
theorem mask_shiftRight_lt (f : HeaderField) : f.mask.toNat >>> f.shift < 2 ^ f.width := by cases f <;> decide

theorem mask_and_mask_of_ne {f g : HeaderField} (h : f ≠ g) : f.mask &&& g.mask = 0#32 := by
  have hall : ∀ f ∈ HeaderField.all, ∀ g ∈ HeaderField.all, f ≠ g → f.mask &&& g.mask = 0#32 := by decide
  exact hall f (mem_headerField_all f) g (mem_headerField_all g) h

/-- Settles O21: R78's table is finite; a raw value is bounded by its shifted mask, an output by its port's width (R114). -/
theorem masksTileTheWordAndBoundTheFields : Obligations.MasksTileTheWordAndBoundTheFields :=
  have bound {n : Nat} (v : BitVec n) : v.toNat ≤ 2 ^ n - 1 := Nat.le_sub_one_of_lt v.isLt
  ⟨rfl, mem_headerField_all, fun _ _ => mask_and_mask_of_ne, by decide,
    fun f hw => Nat.lt_of_le_of_lt (rawField_toNat_le f hw) (mask_shiftRight_lt f),
    fun _ _ _ _ => ⟨bound _, bound _, bound _, bound _, bound _, bound _, bound _, bound _⟩⟩

/-! ### The presence flags are functions of `afc` (R79) -/

theorem afPresent_eq (s : State) : Out.afPresent s = (s.hdr.extractLsb' 4 2).getLsbD 1 := by
  simp [Out.afPresent, Header.afPresent]

theorem plPresent_eq (s : State) : Out.plPresent s = (s.hdr.extractLsb' 4 2).getLsbD 0 := by
  simp [Out.plPresent, Header.plPresent]

theorem afcRsv_eq (s : State) : Out.afcRsv s = (s.hdr.extractLsb' 4 2 == 0b00#2) := by
  rw [Out.afcRsv, Header.afcRsv, afc_eq_slice]

/-- Settles O23: the flags are `afc[1]`, `afc[0]` and `afc = 00`, so each value of `afc` says what they are. -/
theorem presenceFlagsOfEachAfc : Obligations.PresenceFlagsOfEachAfc := by
  intro s
  refine ⟨rfl, rfl, ?_⟩
  rw [afPresent_eq, plPresent_eq, afcRsv_eq]
  generalize s.hdr.extractLsb' 4 2 = afc
  revert afc
  decide

end Sys2Proof.Machine
end

section
/-! PROOF. The classes of R80 and R146: the class of each data byte index and its code (O30). -/

namespace Sys2Proof.Machine

/-- R142: nothing has a class while the boundary is not ready. -/
theorem idxClass_of_not_bndReady (bias : Config.AfLenBias) {s : State} (h : Out.bndReady s = false) (idx : Byte) :
    Out.idxClass bias s idx = .none := by
  simp [Out.idxClass, h]

/-- R80: the code 11 is never produced. -/
theorem code_ne_11 (cls : IdxClass) : cls.code ≠ 0b11#2 := by cases cls <;> decide

/-- Settles O30, by the five boundary cases; an index past the data bytes has no class in any of them. -/
theorem classOfEachIndex : Obligations.ClassOfEachIndex := by
  intro bias s idx pj
  refine ⟨?_, fun hready hidx => ?_, rfl, code_ne_11 _, rfl, rfl, rfl⟩
  · rintro (hready | hidx)
    · exact idxClass_of_not_bndReady bias hready idx
    · exact idxClass_of_ge bias s hidx
  · have hl := lAf_toNat bias s
    rw [← afc_eq_slice]
    obtain ⟨hnot, -⟩ | ⟨-, hafc, -, hcls⟩ | ⟨-, hafc, -, hcls⟩ | ⟨-, hafc, -, hcls⟩ | ⟨-, hafc, herr, -, -, hcls⟩ :=
      boundary_cases bias s
    · simp [hready] at hnot
    · obtain hafc | ⟨hafc, herr⟩ := hafc
      · simp [hafc, hcls]
      · simp [hafc, herr, hcls]
    · simp [hafc, hcls, hidx]
    · simp [hafc, hcls, hidx]
    · simp +contextual [hafc, herr, hcls, hidx, hl]

end Sys2Proof.Machine
end

section
/-! PROOF. The trace lines of 30_encoding.md: the words of the command lines (O50) and what the directives do (O51). -/

namespace Sys2Proof.Machine

@[simp] theorem cycleOf_word (i : Instr) (idx pj : Byte) : (cycleOf i idx pj).word = encode i := commandWord_fields _

/-- R81, R83: a command line takes one cycle, which presents its command. -/
theorem assemble_of_command {l : AsmLine} {i : Instr} (h : l.command = some i) (idx pj : Byte) :
    assemble idx pj [l] = [cycleOf i idx pj] := by
  cases l with
  | rst => cases h
  | idx n => cases h
  | pj n => cases h
  | nop => cases h; rfl
  | ldhdr hw => cases h; rfl
  | ldafl a => cases h; rfl
  | clr => cases h; rfl
  | ldhdrb b0 b1 b2 b3 => cases h; rfl

/-- R82, R51: the literal LDHDRB stands for is the header word of its bytes in stream order. -/
theorem ofBytes_toNat {b0 b1 b2 b3 : Nat} (h : (AsmLine.ldhdrb b0 b1 b2 b3).wellFormed = true) :
    (Header.ofBytes (BitVec.ofNat 8 b0) (BitVec.ofNat 8 b1) (BitVec.ofNat 8 b2) (BitVec.ofNat 8 b3)).toNat =
      ldhdrbLiteral b0 b1 b2 b3 := by
  simp only [AsmLine.wellFormed, literalFits, Bool.and_eq_true, decide_eq_true_eq] at h
  obtain ⟨⟨⟨h0, h1⟩, h2⟩, h3⟩ := h
  simp only [Header.ofBytes, BitVec.toNat_append, BitVec.toNat_ofNat, Nat.mod_eq_of_lt, h0, h1, h2, h3,
    Nat.shiftLeft_or_distrib, ← Nat.shiftLeft_add, ldhdrbLiteral]

/-- R82: the operand of LDHDRB. -/
theorem ofNat_ldhdrbLiteral {b0 b1 b2 b3 : Nat} (h : (AsmLine.ldhdrb b0 b1 b2 b3).wellFormed = true) :
    BitVec.ofNat 32 (ldhdrbLiteral b0 b1 b2 b3) =
      Header.ofBytes (BitVec.ofNat 8 b0) (BitVec.ofNat 8 b1) (BitVec.ofNat 8 b2) (BitVec.ofNat 8 b3) := by
  rw [← ofBytes_toNat h]
  exact BitVec.ofNat_toNat ..

/-- Settles O50: a command line is the cycle of its command, whose word is the command's encoding. -/
theorem assembledLinesAreTheirWords : Obligations.AssembledLinesAreTheirWords := by
  have word {l : AsmLine} {i : Instr} (h : l.command = some i) (idx pj : Byte) :
      (assemble idx pj [l]).map Cycle.word = [encode i] := by
    simp [assemble_of_command h]
  refine ⟨fun hw idx pj _ => word (l := .ldhdr hw) rfl idx pj, fun a idx pj _ => word (l := .ldafl a) rfl idx pj,
    fun idx pj => rfl, fun b0 b1 b2 b3 idx pj hbytes => ⟨rfl, ?_⟩, fun l i idx pj _ h => ?_⟩
  · rw [word (i := .ldhdr _) rfl, ofNat_ldhdrbLiteral hbytes]; rfl
  · simp [assemble_of_command h, decode_encode]

/-! ### The queries of a trace (R83) -/

/-- R83: the first line is assembled under the queries before it, and leaves those the rest is assembled under. -/
theorem assemble_cons (idx pj : Byte) (l : AsmLine) (ls : List AsmLine) :
    assemble idx pj (l :: ls) = assemble idx pj [l] ++
      assemble (queryAfter AsmLine.idxLiteral idx [l]) (queryAfter AsmLine.pjLiteral pj [l]) ls := by
  cases l <;> rfl

/-- R83: a trace is its first part, then its second part under the queries the first part left. -/
theorem assemble_append (idx pj : Byte) (ls ms : List AsmLine) :
    assemble idx pj (ls ++ ms) =
      assemble idx pj ls ++ assemble (queryAfter AsmLine.idxLiteral idx ls) (queryAfter AsmLine.pjLiteral pj ls) ms := by
  induction ls generalizing idx pj with
  | nil => rfl
  | cons l ls ih =>
    have hquery (f : AsmLine → Option Nat) (q : Byte) : queryAfter f (queryAfter f q [l]) ls = queryAfter f q (l :: ls) :=
      (queryAfter_append f q [l] ls).symm
    rw [List.cons_append, assemble_cons, ih, hquery, hquery, ← List.append_assoc, ← assemble_cons]

/-- Lines without an `@idx` directive set no `idx` query. -/
theorem idxLiteral_eq_none_of_not_mem {ls : List AsmLine} (h : ∀ i, AsmLine.idx i ∉ ls) :
    ∀ l ∈ ls, l.idxLiteral = none := by
  intro l hl
  cases l with
  | idx i => exact absurd hl (h i)
  | _ => rfl

/-- Lines without an `@pj` directive set no `pj` query. -/
theorem pjLiteral_eq_none_of_not_mem {ls : List AsmLine} (h : ∀ j, AsmLine.pj j ∉ ls) :
    ∀ l ∈ ls, l.pjLiteral = none := by
  intro l hl
  cases l with
  | pj j => exact absurd hl (h j)
  | _ => rfl

/-- R81, R83: a line that is no query directive takes one cycle, under the queries in force. -/
theorem assemble_of_no_query {l : AsmLine} (hidx : l.idxLiteral = none) (hpj : l.pjLiteral = none) (idx pj : Byte) :
    ∃ c, assemble idx pj [l] = [c] ∧ c.idx = idx ∧ c.pj = pj := by
  cases l with
  | idx i => cases hidx
  | pj j => cases hpj
  | _ => exact ⟨_, rfl, rfl, rfl⟩

/-- R83: without query directives every line takes one cycle, under the queries in force before them all. -/
theorem assemble_without_queries {ls : List AsmLine} (hidx : ∀ l ∈ ls, l.idxLiteral = none)
    (hpj : ∀ l ∈ ls, l.pjLiteral = none) (idx pj : Byte) :
    (assemble idx pj ls).length = ls.length ∧ ∀ c ∈ assemble idx pj ls, c.idx = idx ∧ c.pj = pj := by
  induction ls with
  | nil => simp [assemble]
  | cons l ls ih =>
    obtain ⟨hidxl, hidx⟩ := List.forall_mem_cons.mp hidx
    obtain ⟨hpjl, hpj⟩ := List.forall_mem_cons.mp hpj
    obtain ⟨hlength, hqueries⟩ := ih hidx hpj
    obtain ⟨c, hc, hcidx, hcpj⟩ := assemble_of_no_query hidxl hpjl idx pj
    rw [assemble_cons, queryAfter_of_none idx (by simpa using hidxl), queryAfter_of_none pj (by simpa using hpjl), hc,
      List.singleton_append]
    exact ⟨congrArg (· + 1) hlength, List.forall_mem_cons.mpr ⟨⟨hcidx, hcpj⟩, hqueries⟩⟩

/-- Settles O51: a trace is assembled line by line under the queries in force, which only the directives of their kind
change. -/
theorem directivesDriveResetAndQueries : Obligations.DirectivesDriveResetAndQueries := by
  refine fun idx pj ls ms => ⟨assemble_append idx pj ls ms,
    ⟨resetCycle idx pj, rfl, rfl, rfl, rfl, fun _ => rfl⟩,
    fun l i h => ⟨cycleOf i idx pj, assemble_of_command h idx pj, rfl, ?_, rfl, rfl⟩,
    fun i j => ⟨rfl, queryAfter_append .., queryAfter_append ..⟩,
    fun h => ?_, fun h => ?_, fun hidx hpj => ?_⟩
  · rw [cycleOf_word, decode_encode]
  · rw [queryAfter_append, queryAfter_of_none _ (idxLiteral_eq_none_of_not_mem h)]
  · rw [queryAfter_append, queryAfter_of_none _ (pjLiteral_eq_none_of_not_mem h)]
  · exact assemble_without_queries (idxLiteral_eq_none_of_not_mem hidx) (pjLiteral_eq_none_of_not_mem hpj) idx pj

end Sys2Proof.Machine
end

section
/-! PROOF. Loading a header, 40_header_decode.md: the sync byte validator (O22) and LDHDR (O13). -/

namespace Sys2Proof.Machine

/-! ### The validator's flags, by the sync byte as a slice of HDR (R101 to R103) -/

theorem syncOk_eq (s : State) : Out.syncOk s = (s.hv && s.hdr.extractLsb' 24 8 == 0x47#8) := by
  rw [Out.syncOk, syncByte_eq_slice]; rfl

theorem syncErr_eq (s : State) : Out.syncErr s = (s.hv && s.hdr.extractLsb' 24 8 != 0x47#8) := by
  rw [Out.syncErr, syncByte_eq_slice]; rfl

/-- R101: sync_ok and sync_err split `HV = 1` by the sync byte. -/
theorem syncOk_iff (s : State) : Out.syncOk s = true ↔ s.hv = true ∧ s.hdr.extractLsb' 24 8 = 0x47#8 := by
  rw [syncOk_eq, Bool.and_eq_true, beq_iff_eq]

theorem syncErr_iff (s : State) : Out.syncErr s = true ↔ s.hv = true ∧ s.hdr.extractLsb' 24 8 ≠ 0x47#8 := by
  rw [syncErr_eq, Bool.and_eq_true, bne_iff_ne]

theorem fieldsValid_iff (s : State) : Out.fieldsValid s = true ↔ Out.syncOk s = true ∧ s.serr = false := by
  rw [Out.fieldsValid, Bool.and_eq_true, Bool.not_eq_true']

/-- R101: neither flag is raised exactly while no header is loaded. -/
theorem no_sync_flag_iff (s : State) : Out.syncOk s = false ∧ Out.syncErr s = false ↔ s.hv = false := by
  rw [syncOk_eq, syncErr_eq]
  cases s.hv <;> simp

/-- Settles O22, by the flags' conditions; R27 (b) gives the latch of a bad sync byte, and with it the last clause. -/
theorem syncValidatorFlags : Obligations.SyncValidatorFlags := by
  intro s
  have hlatch (hinv : RegisterInv s) (herr : Out.syncErr s = true) : Out.term s = true := by
    obtain ⟨-, hb, -⟩ := hinv
    exact hb ((syncErr_iff s).mp herr)
  refine ⟨rfl, syncOk_iff s, syncErr_iff s, ?_, no_sync_flag_iff s, rfl, fieldsValid_iff s, ?_, hlatch, ?_⟩
  · rintro ⟨hok, herr⟩
    exact ((syncErr_iff s).mp herr).2 ((syncOk_iff s).mp hok).2
  · intro hvalid
    exact ((syncOk_iff s).mp ((fieldsValid_iff s).mp hvalid).1).2
  · intro hinv hvalid hterm
    have hok : Out.syncOk s = false := Bool.eq_false_iff.mpr fun hok => by
      simp [(fieldsValid_iff s).mpr ⟨hok, hterm⟩] at hvalid
    have herr : Out.syncErr s = false := Bool.eq_false_iff.mpr fun herr => by
      simp [hlatch hinv herr] at hterm
    exact (no_sync_flag_iff s).mp ⟨hok, herr⟩

/-! ### LDHDR -/

/-- R240: with `rst` high a step is reset, whatever the command. -/
theorem step_of_rst_high {s : State} {c : Cycle} {rest : List Cycle} (hinputs : s.inputs = c :: rest)
    (hrst : c.rst = true) : step s = .next { State.reset with inputs := rest } := by
  rw [step_cons hinputs, clockEdge_of_no_command (by simp [Cycle.command, hrst])]
  rfl

/-- R72, R73: a cycle with command code 01 presents LDHDR with its `data`. -/
theorem decode_word_of_cmd_ldhdr {c : Cycle} (h : c.cmd = 0b01#2) : decode c.word = .ldhdr c.data := by
  rw [decode_of_cmd_ldhdr (by rw [Cycle.word, cmdField_commandWord, h]), Cycle.word, dataField_commandWord]

/-- Settles O13: LDHDR's registers as `execLdhdr_eq` gives them, and the flags of those registers. The fields are valid when the
byte is good and SERR, once the byte has been seen, is 0. -/
theorem ldhdrLoadsTheHeaderWord : Obligations.LdhdrLoadsTheHeaderWord := by
  have hvalid (serr good : Bool) : (good && !(serr || !good)) = (!serr && good) := by
    revert serr good; decide
  refine ⟨fun hw s => ?_, fun s c rest hinputs hcmd => ⟨fun hrst => ?_, step_of_rst_high hinputs⟩⟩
  · have hserr : (s.serr || badSync hw) = (s.serr || hw.extractLsb' 24 8 != 0x47#8) := by rw [badSync_eq]
    refine ⟨_, execLdhdr_eq hw s, rfl, rfl, rfl, rfl, hserr, rfl, rfl, rfl, syncOk_eq _, syncErr_eq _, hserr, ?_⟩
    rw [Out.fieldsValid, syncOk_eq, hserr]
    exact hvalid s.serr (hw.extractLsb' 24 8 == 0x47#8)
  · rw [step_cons hinputs, clockEdge_of_rst_low hrst, decode_word_of_cmd_ldhdr hcmd]

end Sys2Proof.Machine
end

section
/-! PROOF. The field outputs of 40_header_decode.md: mask, shift and slice (O18), and the fields packed back (O20). -/

namespace Sys2Proof.Machine

/-- R78, R114: narrowing a masked and shifted word to its field's width loses nothing. -/
theorem rawField_narrowed (f : HeaderField) (hw : HeaderWord) :
    ((rawField f hw).setWidth f.width).setWidth 32 = rawField f hw := by
  have hlt : (rawField f hw).toNat < 2 ^ f.width := Nat.lt_of_le_of_lt (rawField_toNat_le f hw) (mask_shiftRight_lt f)
  apply BitVec.eq_of_toNat_eq
  rw [BitVec.toNat_setWidth, BitVec.toNat_setWidth, Nat.mod_eq_of_lt hlt, Nat.mod_eq_of_lt (rawField f hw).isLt]

/-- R108: the PID spans the low five bits of byte 1 and all of byte 2. -/
theorem pid_slice_eq_append (hw : HeaderWord) : hw.extractLsb' 8 13 = hw.extractLsb' 16 5 ++ hw.extractLsb' 8 8 :=
  (BitVec.extractLsb'_append_extractLsb'_eq_extractLsb' (start₁ := 8) (len₁ := 8) (len₂ := 5) rfl).symm

/-- Settles O18: a field port is the raw field of R78 narrowed, and is the slice its rule names. -/
theorem fieldOutputsAreTheirSlicesOfHdr : Obligations.FieldOutputsAreTheirSlicesOfHdr := by
  refine ⟨fun _ s _ _ => ?_, fun _ _ _ => ⟨rfl, rfl⟩⟩
  have hraw (f : HeaderField) := rawField_narrowed f s.hdr
  exact ⟨⟨hraw .syncByte, syncByte_eq_slice _⟩, ⟨hraw .tei, tei_eq_slice _⟩, ⟨hraw .pusi, pusi_eq_slice _⟩,
    ⟨hraw .tp, tp_eq_slice _⟩,
    ⟨hraw .pid, pid_eq_slice _, (pid_eq_slice _).trans (pid_slice_eq_append _)⟩,
    ⟨hraw .tsc, tsc_eq_slice _⟩, ⟨hraw .afc, afc_eq_slice _⟩, ⟨hraw .cc, cc_eq_slice _⟩⟩

/-! ### The fields packed back (R113) -/

/-- Shifting a masked word right and back loses nothing when the mask keeps no bit below the shift. -/
theorem mask_shift_shift_back (hw mask : HeaderWord) (shift : Nat) (clear : ∀ i, i < shift → mask.getLsbD i = false) :
    ((hw &&& mask) >>> shift) <<< shift = hw &&& mask := by
  apply BitVec.eq_of_getLsbD_eq
  intro i hi
  by_cases h : i < shift
  · simp [h, clear i h]
  · simp [h, hi, Nat.add_sub_cancel' (Nat.le_of_not_lt h)]

theorem mask_clear_below_shift (f : HeaderField) : ∀ i, i < f.shift → f.mask.getLsbD i = false := by
  cases f <;> decide

/-- R113: a field shifted back to its place is what its mask keeps of the header word. -/
theorem field_shifted_back (f : HeaderField) (hw : HeaderWord) :
    ((rawField f hw).setWidth f.width).setWidth 32 <<< f.shift = hw &&& f.mask := by
  rw [rawField_narrowed, rawField, mask_shift_shift_back _ _ _ (mask_clear_below_shift f)]

/-- R113: the inverse shifts put the fields back to the header word, since the masks tile it (R78). -/
theorem orFields_headerFields (hw : HeaderWord) : orFields (headerFields hw) = hw := by
  have hcc : (Header.cc hw).setWidth 32 = hw &&& HeaderField.mask .cc :=
    (BitVec.shiftLeft_zero _).symm.trans (field_shifted_back .cc hw)
  have htile : hw &&& (HeaderField.mask .syncByte ||| HeaderField.mask .tei ||| HeaderField.mask .pusi |||
      HeaderField.mask .tp ||| HeaderField.mask .pid ||| HeaderField.mask .tsc ||| HeaderField.mask .afc |||
      HeaderField.mask .cc) = hw := BitVec.and_allOnes
  have back (f : HeaderField) := field_shifted_back f hw
  rw [orFields, headerFields, hcc]
  conv_rhs => rw [← htile]
  simp only [BitVec.and_or_distrib_left, ← back]
  rfl

/-- Settles O20: the ports pack back to HDR as the fields of HDR do, both ways. -/
theorem packedFieldsAreHdr : Obligations.PackedFieldsAreHdr :=
  fun _ s _ _ => ⟨packFields_headerFields s.hdr, orFields_headerFields s.hdr⟩

end Sys2Proof.Machine
end

section
/-! PROOF. What the outputs read of the registers (R115, R116, R118): the header outputs (O25), and the flags, conditions and
boundary, which read only the sync byte and `afc` of HDR (O24). -/

namespace Sys2Proof.Machine

open Sys2Proof.Config

/-- Settles O25: with HV, HDR and SERR shared, each port is the same function of them on both sides; AFL, AFLV, the host's cycles,
the bias and the queries stay free. -/
theorem headerOutputsReadOnlyHvHdrSerr : Obligations.HeaderOutputsReadOnlyHvHdrSerr := by
  rintro ⟨hdr, hv, _, _, serr, _⟩ ⟨_, _, _, _, _, _⟩ _ _ _ _ _ _ rfl rfl rfl
  exact ⟨rfl, rfl, rfl, rfl, rfl, rfl, rfl, rfl, rfl, rfl, rfl, rfl, rfl, rfl, rfl, rfl⟩

/-- The states agree in every register, and in HDR at least in the sync byte and `afc`. -/
structure AgreeButIgnoredFields (s t : State) : Prop where
  syncByte : Header.syncByte s.hdr = Header.syncByte t.hdr
  afc : Header.afc s.hdr = Header.afc t.hdr
  hv : s.hv = t.hv
  afl : s.afl = t.afl
  aflv : s.aflv = t.aflv
  serr : s.serr = t.serr

namespace AgreeButIgnoredFields

variable {s t : State} (h : AgreeButIgnoredFields s t)
include h

theorem afPresent_eq : Out.afPresent s = Out.afPresent t := by
  rw [Machine.afPresent_eq, Machine.afPresent_eq, ← afc_eq_slice, ← afc_eq_slice, h.afc]

theorem plPresent_eq : Out.plPresent s = Out.plPresent t := by
  rw [Machine.plPresent_eq, Machine.plPresent_eq, ← afc_eq_slice, ← afc_eq_slice, h.afc]

theorem afcRsv_eq : Out.afcRsv s = Out.afcRsv t := by rw [Out.afcRsv, Out.afcRsv, Header.afcRsv, Header.afcRsv, h.afc]

theorem syncOk_eq : Out.syncOk s = Out.syncOk t := by rw [Out.syncOk, Out.syncOk, h.hv, h.syncByte]

theorem syncErr_eq : Out.syncErr s = Out.syncErr t := by rw [Out.syncErr, Out.syncErr, h.hv, h.syncByte]

theorem fieldsValid_eq : Out.fieldsValid s = Out.fieldsValid t := by
  rw [Out.fieldsValid, Out.fieldsValid, h.syncOk_eq, h.serr]

theorem bndReady_eq : Out.bndReady s = Out.bndReady t := by
  rw [Out.bndReady, Out.bndReady, h.fieldsValid_eq, h.afc, h.aflv]

theorem lAf_eq (bias : AfLenBias) : Out.lAf bias s = Out.lAf bias t := by rw [Out.lAf, Out.lAf, h.afl]

theorem aflErr_eq (bias : AfLenBias) : Out.aflErr bias s = Out.aflErr bias t := by
  rw [Out.aflErr, Out.aflErr, h.fieldsValid_eq, h.afc, h.aflv, h.lAf_eq]

theorem plOffset_eq (bias : AfLenBias) : Out.plOffset bias s = Out.plOffset bias t := by
  simp only [Out.plOffset, Out.afcValue, h.bndReady_eq, h.afc, h.aflErr_eq, h.lAf_eq]

theorem plLength_eq (bias : AfLenBias) : Out.plLength bias s = Out.plLength bias t := by
  rw [Out.plLength, Out.plLength, h.plOffset_eq]

theorem idxClass_eq (bias : AfLenBias) (idx : Byte) : Out.idxClass bias s idx = Out.idxClass bias t idx := by
  simp only [Out.idxClass, Out.afcValue, h.bndReady_eq, h.afc, h.aflErr_eq, h.lAf_eq]

theorem pselValid_eq (bias : AfLenBias) (pj : Byte) : Out.pselValid bias s pj = Out.pselValid bias t pj := by
  rw [Out.pselValid, Out.pselValid, h.plLength_eq]

theorem psel_eq (bias : AfLenBias) (pj : Byte) : Out.psel bias s pj = Out.psel bias t pj := by
  rw [Out.psel, Out.psel, h.pselValid_eq, h.plOffset_eq]

theorem errCode_eq (bias : AfLenBias) : Out.errCode bias s = Out.errCode bias t := by
  rw [Out.errCode, Out.errCode, h.serr, h.fieldsValid_eq, h.afc, h.aflErr_eq]

theorem status_eq (bias : AfLenBias) : Out.status bias s = Out.status bias t := by
  rw [Out.status, Out.status, h.errCode_eq, h.bndReady_eq, h.fieldsValid_eq, h.syncOk_eq, Out.aflLoaded, Out.aflLoaded,
    Out.term, Out.term, Out.hdrLoaded, Out.hdrLoaded, h.aflv, h.serr, h.hv]

end AgreeButIgnoredFields

/-- R100: words with the same sync byte leave the same registers but HDR. -/
theorem ldhdr_of_same_syncByte {hw hv : HeaderWord} (h : hw.extractLsb' 24 8 = hv.extractLsb' 24 8) (s : State) :
    ∃ t, exec (.ldhdr hw) s = .next t ∧ exec (.ldhdr hv) s = .next { t with hdr := hv } := by
  refine ⟨_, execLdhdr_eq hw s, ?_⟩
  have hbad : badSync hv = badSync hw := by rw [badSync_eq, badSync_eq, h]
  rw [← hbad]
  exact execLdhdr_eq hv s

/-- Settles O24: the replaced header agrees in the sync byte and `afc`, and no port but the fields' own reads more; LDHDR reads
the sync byte alone. -/
theorem onlySyncByteAndAfcMatter : Obligations.OnlySyncByteAndAfcMatter := by
  refine ⟨fun bias s hw idx pj hsync hafc => ?_, fun s hw hv h => ldhdr_of_same_syncByte h s, fun s hw hserr hgood => ?_⟩
  · have h : AgreeButIgnoredFields { s with hdr := hw } s :=
      { syncByte := by rw [syncByte_eq_slice, syncByte_eq_slice, hsync]
        afc := by rw [afc_eq_slice, afc_eq_slice, hafc]
        hv := rfl, afl := rfl, aflv := rfl, serr := rfl }
    exact ⟨pid_eq_slice hw, rfl, rfl, h.afPresent_eq, h.plPresent_eq, h.afcRsv_eq, h.fieldsValid_eq, h.syncOk_eq,
      h.syncErr_eq, rfl, congrArg ErrCode.code (h.errCode_eq bias), h.status_eq bias, h.bndReady_eq, h.aflErr_eq bias,
      h.plOffset_eq bias, h.plLength_eq bias, congrArg IdxClass.code (h.idxClass_eq bias idx), h.psel_eq bias pj,
      h.pselValid_eq bias pj⟩
  · obtain ⟨hload, -⟩ := ldhdrLoadsTheHeaderWord
    obtain ⟨t, hexec, -, -, -, -, -, -, -, -, -, -, -, hvalid⟩ := hload hw s
    exact ⟨t, hexec, by simp [hvalid, hserr, hgood]⟩

end Sys2Proof.Machine
end

section
/-! PROOF. The presence flags as a consumer takes them, and the flags until a header is loaded (O53; R103, R112, R171, R240). -/

namespace Sys2Proof.Machine

open Sys2Proof.Config

/-- R201, R205: AFCRSV is reported exactly when a consumer takes `afc_rsv`, since valid fields exclude SERR. -/
theorem errCode_eq_afcrsv_iff (bias : AfLenBias) (s : State) :
    Out.errCode bias s = .afcrsv ↔ Out.qualified s (Out.afcRsv s) = true := by
  have hqualified : Out.qualified s (Out.afcRsv s) = (Out.fieldsValid s && Header.afc s.hdr == 0b00#2) := rfl
  rw [Out.errCode, ← hqualified]
  cases hserr : s.serr with
  | true =>
    have hvalid : Out.fieldsValid s = false := by simp [Out.fieldsValid, hserr]
    simp [qualified_of_not_fieldsValid hvalid]
  | false =>
    cases Out.qualified s (Out.afcRsv s) with
    | true => simp
    | false => cases Out.aflErr bias s <;> simp

/-! ### A run that loads no header -/

/-- R240, R171: the edge of a reset or CLR cycle leaves the reset values. -/
theorem clockEdge_of_rst_or_clr_command {c : Cycle} (h : c.rst = true ∨ c.command = some .clr) (s : State) :
    clockEdge c s = .next (resetRegisters s) := by
  obtain hrst | hclr := h
  · exact clockEdge_of_no_command (by simp [Cycle.command, hrst]) s
  · exact clockEdge_of_command hclr s

/-- Anything the edges of a run's own cycles keep, the run keeps. -/
theorem run_keeps_of_mem {P : State → Prop} {cs : List Cycle}
    (keeps : ∀ c ∈ cs, ∀ s t, P s → clockEdge c s = .next t → P t) {s t : State} (hs : P s)
    (h : run cs s = .next t) : P t := by
  induction cs generalizing s with
  | nil => cases h; exact hs
  | cons c cs ih =>
    obtain ⟨u, hu⟩ := clockEdge_next c s
    rw [run_cons hu] at h
    obtain ⟨hc, hcs⟩ := List.forall_mem_cons.mp keeps
    exact ih hcs (hc s u hs hu) h

/-- No header is loaded and no bad sync byte is latched. -/
def NoHeader (s : State) : Prop := s.hv = false ∧ s.serr = false

/-- R23, R26: only a header load raises HV or SERR. -/
theorem clockEdge_keeps_noHeader {c : Cycle} (hc : c.header = none) {s t : State} (hs : NoHeader s)
    (h : clockEdge c s = .next t) : NoHeader t := by
  cases hcmd : c.command with
  | none =>
    rw [clockEdge_of_no_command hcmd] at h
    cases h; exact ⟨rfl, rfl⟩
  | some i =>
    rw [clockEdge_of_command hcmd] at h
    obtain ⟨-, rfl⟩ | ⟨hw, rfl, -⟩ | ⟨a, -, rfl⟩ | ⟨-, rfl⟩ := exec_cases h
    · exact hs
    · simp [Cycle.header, hcmd] at hc
    · exact hs
    · exact ⟨rfl, rfl⟩

/-! ### The flags of a state without a header -/

/-- R103: without a header the fields are not valid. -/
theorem NoHeader.fieldsValid {s : State} (h : NoHeader s) : Out.fieldsValid s = false := by
  obtain ⟨hhv, -⟩ := h
  simp [Out.fieldsValid, Out.syncOk, hhv]

theorem bndReady_of_not_fieldsValid {s : State} (h : Out.fieldsValid s = false) : Out.bndReady s = false := by
  simp [Out.bndReady, h]

theorem aflErr_of_not_fieldsValid (bias : AfLenBias) {s : State} (h : Out.fieldsValid s = false) :
    Out.aflErr bias s = false := by
  simp [Out.aflErr, h]

/-- R144, R145, R147: a boundary that is not ready selects nothing. -/
theorem pselValid_of_not_bndReady (bias : AfLenBias) {s : State} (h : Out.bndReady s = false) (pj : Byte) :
    Out.pselValid bias s pj = false := by
  have hoffset : Out.plOffset bias s = 184#8 := by simp [Out.plOffset, h]
  simp [Out.pselValid, Out.plLength, hoffset]

/-- R201: without SERR and without valid fields there is no condition. -/
theorem errCode_of_not_fieldsValid (bias : AfLenBias) {s : State} (hserr : s.serr = false)
    (h : Out.fieldsValid s = false) : Out.errCode bias s = .none := by
  simp [Out.errCode, hserr, h, aflErr_of_not_fieldsValid bias h]

/-- Settles O53: the reset values have no header, cycles that load none keep it so, and no flag is taken without valid fields. -/
theorem noFlagIsTakenUntilAHeaderIsLoaded : Obligations.NoFlagIsTakenUntilAHeaderIsLoaded := by
  refine ⟨fun bias s => ⟨qualified_of_fieldsValid, qualified_of_not_fieldsValid, errCode_eq_afcrsv_iff bias s⟩,
    fun bias idx pj s c hc => ⟨_, clockEdge_of_rst_or_clr_command hc s, ⟨status_reset bias, rfl⟩, fun cs hcs => ?_⟩⟩
  obtain ⟨u, hrun⟩ := run_next cs (resetRegisters s)
  have hnone : NoHeader u := run_keeps_of_mem (fun d hd _ _ => clockEdge_keeps_noHeader (hcs d hd)) ⟨rfl, rfl⟩ hrun
  have hvalid := hnone.fieldsValid
  have hready := bndReady_of_not_fieldsValid hvalid
  obtain ⟨hhv, hserr⟩ := hnone
  obtain ⟨hok, herr⟩ := (no_sync_flag_iff u).mpr hhv
  exact ⟨u, hrun, hhv, hok, herr, hserr, hvalid, qualified_of_not_fieldsValid hvalid _,
    qualified_of_not_fieldsValid hvalid _, qualified_of_not_fieldsValid hvalid _, hready,
    aflErr_of_not_fieldsValid bias hvalid, pselValid_of_not_bndReady bias hready pj,
    congrArg ErrCode.code (errCode_of_not_fieldsValid bias hserr hvalid)⟩

end Sys2Proof.Machine
end

section
/-! PROOF. LDAFL, 41_payload_boundary.md (O14; R140). -/

namespace Sys2Proof.Machine

/-- R72, R73: a cycle with command code 10 presents LDAFL with the low byte of its `data`. -/
theorem decode_word_of_cmd_ldafl {c : Cycle} (h : c.cmd = 0b10#2) : decode c.word = .ldafl (c.data.extractLsb' 0 8) := by
  rw [decode_of_cmd_ldafl (by rw [Cycle.word, cmdField_commandWord, h]), Cycle.word, dataField_commandWord, operandB]

/-- R100: LDHDR drops the AFL byte loaded before it. -/
theorem execLdhdr_setAfl (hw : HeaderWord) (a : Byte) (s : State) : execLdhdr hw (setAfl a s) = execLdhdr hw s :=
  (execLdhdr_eq hw _).trans (execLdhdr_eq hw s).symm

/-- Settles O14: LDAFL is `setAfl`, which a second LDAFL and an LDHDR overwrite. -/
theorem ldaflLoadsTheAflByte : Obligations.LdaflLoadsTheAflByte := by
  refine ⟨fun a s => ⟨setAfl a s, rfl, rfl, rfl, rfl, rfl, rfl, rfl, rfl, fun _ => rfl, fun hw => execLdhdr_setAfl hw a s⟩,
    fun s c rest hinputs hcmd => ⟨fun hrst => ?_, step_of_rst_high hinputs⟩⟩
  rw [step_cons hinputs, clockEdge_of_rst_low hrst, decode_word_of_cmd_ldafl hcmd]

end Sys2Proof.Machine
end

section
/-! PROOF. The boundary's readiness and length error, 41_payload_boundary.md: when each flag is 1 (O27, O28), and the byte count they
rest on (O26). -/

namespace Sys2Proof.Machine

open Sys2Proof.Config

theorem bndReady_iff (s : State) :
    Out.bndReady s = true ↔ Out.fieldsValid s = true ∧ (s.hdr.extractLsb' 4 2 ≠ 0b11#2 ∨ s.aflv = true) := by
  rw [Out.bndReady, afc_eq_slice, Bool.and_eq_true, Bool.or_eq_true, bne_iff_ne]

/-- R142: where `afc` is not 11 the boundary waits for no AFL byte. -/
theorem bndReady_of_afc_ne {s : State} (h : Header.afc s.hdr ≠ 0b11#2) : Out.bndReady s = Out.fieldsValid s := by
  simp [Out.bndReady, h]

/-- R103: the fields are not valid in a terminal pass. -/
theorem not_fieldsValid_of_serr {s : State} (h : s.serr = true) : Out.fieldsValid s = false := by
  simp [Out.fieldsValid, h]

/-- Settles O27, from the definition of `bnd_ready` and R103. -/
theorem boundaryIsReadyWhen : Obligations.BoundaryIsReadyWhen := by
  refine fun s => ⟨bndReady_iff s, fun hafc => ?_, fun hserr => bndReady_of_not_fieldsValid (not_fieldsValid_of_serr hserr)⟩
  exact bndReady_of_afc_ne (by rwa [afc_eq_slice])

theorem aflErr_iff (bias : AfLenBias) (s : State) :
    Out.aflErr bias s = true ↔ Out.fieldsValid s = true ∧ s.hdr.extractLsb' 4 2 = 0b11#2 ∧ s.aflv = true ∧
      184 < s.afl.toNat + bias.toNat := by
  simp only [Out.aflErr, afc_eq_slice, Bool.and_eq_true, beq_iff_eq, decide_eq_true_eq, lAf_toNat, dataBytes, and_assoc]

/-- R143: no length error before an AFL byte is loaded. -/
theorem aflErr_of_not_aflv (bias : AfLenBias) {s : State} (h : s.aflv = false) : Out.aflErr bias s = false := by
  simp [Out.aflErr, h]

/-- R144: an adaptation field that fits is skipped, and its byte count is at most 184. -/
theorem plOffset_of_both {bias : AfLenBias} {s : State} (hready : Out.bndReady s = true)
    (hafc : s.hdr.extractLsb' 4 2 = 0b11#2) (herr : Out.aflErr bias s = false) :
    (Out.plOffset bias s).toNat = s.afl.toNat + bias.toNat ∧ s.afl.toNat + bias.toNat ≤ 184 := by
  rw [← afc_eq_slice] at hafc
  have hle := (aflErr_false_iff bias hready hafc).mp herr
  rw [lAf_toNat] at hle
  refine ⟨?_, hle⟩
  have hoffset : Out.plOffset bias s = (Out.lAf bias s).setWidth 8 := by
    simp [Out.plOffset, Out.afcValue, hready, hafc, herr]
  rw [hoffset, BitVec.toNat_setWidth, lAf_toNat, Nat.mod_eq_of_lt (by omega)]

/-- R145: the payload is what an adaptation field that fits leaves of the 184 data bytes. -/
theorem plLength_of_both {bias : AfLenBias} {s : State} (hready : Out.bndReady s = true)
    (hafc : s.hdr.extractLsb' 4 2 = 0b11#2) (herr : Out.aflErr bias s = false) :
    (Out.plLength bias s).toNat = 184 - (s.afl.toNat + bias.toNat) := by
  obtain ⟨hoffset, -⟩ := plOffset_of_both hready hafc herr
  rw [plLength_toNat, hoffset]

/-- Settles O26: the sum of R141, and R145 for each bias. -/
theorem occupiedByteCountIsExact : Obligations.OccupiedByteCountIsExact := by
  intro bias s
  have hl := lAf_toNat bias s
  have hafl := s.afl.isLt
  have hbias := bias.isLt
  refine ⟨hl, by omega, ?_, ?_, fun hready hafc herr => ?_⟩
  · rintro rfl; exact hl
  · rintro rfl; exact hl
  · have hlen := plLength_of_both hready hafc herr
    constructor
    · rintro rfl; exact hlen
    · rintro rfl
      rw [hlen, BitVec.toNat_one (by decide)]
      omega

/-- R143: the last legal AFL byte leaves no payload. -/
theorem plLength_of_full {bias : AfLenBias} {s : State} (hvalid : Out.fieldsValid s = true)
    (hafc : s.hdr.extractLsb' 4 2 = 0b11#2) (haflv : s.aflv = true) (hfull : s.afl.toNat + bias.toNat = 184) :
    Out.plLength bias s = 0#8 := by
  have hready := (bndReady_iff s).mpr ⟨hvalid, .inr haflv⟩
  have herr : Out.aflErr bias s = false := Bool.eq_false_iff.mpr fun h => by
    obtain ⟨-, -, -, hover⟩ := (aflErr_iff bias s).mp h
    omega
  apply BitVec.eq_of_toNat_eq
  rw [plLength_of_both hready hafc herr, hfull]
  rfl

/-- Settles O28: the flag's condition read at each bias; LDHDR lowers AFLV, and valid fields exclude SERR. -/
theorem aflErrorLimits : Obligations.AflErrorLimits := by
  intro bias s
  refine ⟨aflErr_iff bias s, fun hvalid hafc haflv => ?_, fun herr => ?_,
    fun hw => ⟨_, execLdhdr_eq hw s, aflErr_of_not_aflv bias rfl⟩⟩
  · have hlimit : Out.aflErr bias s = true ↔ 184 < s.afl.toNat + bias.toNat := by
      simp [aflErr_iff, hvalid, hafc, haflv]
    have hfull := plLength_of_full (bias := bias) hvalid hafc haflv
    constructor
    · rintro rfl
      exact ⟨hlimit, fun hafl => hfull (by rw [hafl]; rfl)⟩
    · rintro rfl
      exact ⟨hlimit.trans Nat.lt_succ_iff, fun hafl => hfull (by rw [hafl]; rfl)⟩
  · obtain ⟨hvalid, -⟩ := (aflErr_iff bias s).mp herr
    obtain ⟨-, hserr⟩ := (fieldsValid_iff s).mp hvalid
    exact hserr

end Sys2Proof.Machine
end

section
/-! PROOF. The payload offset and length (O29) and the selector (O31), 41_payload_boundary.md. -/

namespace Sys2Proof.Machine

open Sys2Proof.Config

/-- R144: the states without a payload have offset 184. -/
theorem plOffset_of_no_payload {bias : AfLenBias} {s : State}
    (h : Out.bndReady s = false ∨ s.hdr.extractLsb' 4 2 = 0b00#2 ∨ s.hdr.extractLsb' 4 2 = 0b10#2 ∨
      Out.aflErr bias s = true) : Out.plOffset bias s = 184#8 := by
  rw [← afc_eq_slice] at h
  obtain ⟨-, hoffset, -⟩ | ⟨-, -, hoffset, -⟩ | ⟨hready, hafc, -⟩ | ⟨-, -, hoffset, -⟩ | ⟨hready, hafc, herr, -⟩ :=
    boundary_cases bias s
  case inr.inr.inl => simp [hready, hafc, aflErr_of_afc_ne] at h
  case inr.inr.inr.inr => simp [hready, hafc, herr] at h
  all_goals exact hoffset

theorem plOffset_of_payloadOnly (bias : AfLenBias) {s : State} (hready : Out.bndReady s = true)
    (hafc : s.hdr.extractLsb' 4 2 = 0b01#2) : Out.plOffset bias s = 0#8 := by
  rw [← afc_eq_slice] at hafc
  simp [Out.plOffset, Out.afcValue, hready, hafc]

/-- R145: all 184 data bytes are payload without an adaptation field, or with one of no bytes. -/
theorem plOffset_eq_zero_iff (bias : AfLenBias) (s : State) :
    (Out.plOffset bias s).toNat = 0 ↔ Out.bndReady s = true ∧
      (s.hdr.extractLsb' 4 2 = 0b01#2 ∨ s.hdr.extractLsb' 4 2 = 0b11#2 ∧ s.afl.toNat + bias.toNat = 0) := by
  cases hready : Out.bndReady s with
  | false => simp [plOffset_of_no_payload (bias := bias) (.inl hready)]
  | true =>
    obtain hafc | hafc | hafc | hafc := afc_cases (s.hdr.extractLsb' 4 2)
    · simp [plOffset_of_no_payload (bias := bias) (.inr (.inl hafc)), hafc]
    · simp [plOffset_of_payloadOnly bias hready hafc, hafc]
    · simp [plOffset_of_no_payload (bias := bias) (.inr (.inr (.inl hafc))), hafc]
    · cases herr : Out.aflErr bias s with
      | true =>
        obtain ⟨-, -, -, hover⟩ := (aflErr_iff bias s).mp herr
        simp [plOffset_of_no_payload (.inr (.inr (.inr herr))), hafc]
        omega
      | false =>
        obtain ⟨hoffset, -⟩ := plOffset_of_both hready hafc herr
        simp [hoffset, hafc]

/-- Settles O29: the offset of each case, and the length it leaves of 184. -/
theorem payloadOffsetAndLength : Obligations.PayloadOffsetAndLength := by
  intro bias s off len afc l
  have hlen : len = 184 - off := plLength_toNat bias s
  have hnone (h : Out.bndReady s = false ∨ afc = 0b00#2 ∨ afc = 0b10#2 ∨ Out.aflErr bias s = true) : off = 184 :=
    congrArg BitVec.toNat (plOffset_of_no_payload h)
  refine ⟨fun hready => hnone (.inl hready), fun hready => ⟨fun hafc => hnone (.inr (.inl hafc)), fun hafc => ?_,
    fun hafc => hnone (.inr (.inr (.inl hafc))), fun hafc => ⟨fun herr => hnone (.inr (.inr (.inr herr))),
      plOffset_of_both hready hafc⟩⟩, plOffset_le bias s, hlen, fun h => ?_, ?_, fun hready hafc herr => ?_⟩
  · exact congrArg BitVec.toNat (plOffset_of_payloadOnly bias hready hafc)
  · rw [hlen, hnone h]
  · have hzero : len = 184 ↔ off = 0 := by omega
    exact hzero.trans (plOffset_eq_zero_iff bias s)
  · rintro rfl
    exact plLength_of_both hready hafc herr

/-! ### The selector (R147) -/

theorem plOffset_add_plLength (bias : AfLenBias) (s : State) :
    (Out.plOffset bias s).toNat + (Out.plLength bias s).toNat = 184 := by
  rw [plLength_toNat, Nat.add_sub_cancel' (plOffset_le bias s)]

theorem pselValid_iff (bias : AfLenBias) (s : State) (pj : Byte) :
    Out.pselValid bias s pj = true ↔ pj.toNat < (Out.plLength bias s).toNat := by
  rw [Out.pselValid, decide_eq_true_eq, BitVec.lt_def]

theorem psel_of_ge (bias : AfLenBias) {s : State} {pj : Byte} (h : (Out.plLength bias s).toNat ≤ pj.toNat) :
    Out.psel bias s pj = 0x00#8 :=
  if_neg fun hvalid => Nat.not_lt.mpr h ((pselValid_iff bias s pj).mp hvalid)

/-- Settles O31: the selector adds the offset below the length; offset and length add to 184. -/
theorem selectorAnswersEachPayloadIndex : Obligations.SelectorAnswersEachPayloadIndex := by
  intro bias s pj off len
  have hsum : off + len = 184 := plOffset_add_plLength bias s
  have hvalid : Out.pselValid bias s pj = true ↔ pj.toNat < len := pselValid_iff bias s pj
  refine ⟨hvalid, fun h => ⟨psel_toNat bias h, by omega⟩, psel_of_ge bias, fun h => ?_, fun h => ?_⟩
  · have hlt : pj.toNat < len := by omega
    have hpsel : (Out.psel bias s pj).toNat = off + pj.toNat := psel_toNat bias hlt
    exact ⟨hvalid.mpr hlt, by omega⟩
  · exact Bool.eq_false_iff.mpr fun hv => by
      have hlt := hvalid.mp hv
      omega

end Sys2Proof.Machine
end

section
/-! PROOF. The boundary laws (a) to (f) of R149 (O32). -/

namespace Sys2Proof.Machine

open Sys2Proof.Config

/-- R149 (b), with R55's bound: the payload indexes run from the offset to 183. -/
theorem idxClass_eq_payload_iff (bias : AfLenBias) (s : State) (idx : Byte) :
    Out.idxClass bias s idx = .payload ↔ (Out.plOffset bias s).toNat ≤ idx.toNat ∧ idx.toNat < 184 := by
  obtain ⟨-, hoffset, hclass⟩ | ⟨-, -, hoffset, hclass⟩ | ⟨-, -, hoffset, hclass⟩ | ⟨-, -, hoffset, hclass⟩ |
    ⟨-, -, -, -, hoffset, hclass⟩ := boundary_cases bias s <;> rw [hoffset, hclass]
  · simp
  · simp
  · simp
  · split <;> simp
  · split_ifs with hidx hlt
    · simp [Nat.not_le.mpr hlt]
    · simp [hidx, Nat.le_of_not_lt hlt]
    · simp [hidx]

/-- R149 (c). -/
theorem idxClass_eq_adapt_iff (bias : AfLenBias) (s : State) {idx : Byte} (hidx : idx.toNat < 184) :
    Out.idxClass bias s idx = .adapt ↔ Out.bndReady s = true ∧ Out.afPresent s = true ∧ Out.aflErr bias s = false ∧
      (s.hdr.extractLsb' 4 2 = 0b10#2 ∨ idx.toNat < (Out.lAf bias s).toNat) := by
  rw [afPresent_eq, ← afc_eq_slice]
  obtain ⟨hready, -, hclass⟩ | ⟨-, hafc, -, hclass⟩ | ⟨-, hafc, -, hclass⟩ | ⟨hready, hafc, -, hclass⟩ |
    ⟨hready, hafc, herr, -, -, hclass⟩ := boundary_cases bias s
  · simp [hready, hclass]
  · obtain hafc | ⟨-, herr⟩ := hafc
    · simp [hafc, hclass]
    · simp [herr, hclass]
  · simp [hafc, hclass, hidx]
  · simp [hready, hafc, hclass, hidx, aflErr_of_afc_ne]
  · simp [hready, hafc, herr, hclass, hidx]

/-- R149 (d): every payload index is selected. -/
theorem exists_psel_of_payload (bias : AfLenBias) {s : State} {idx : Byte} (h : Out.idxClass bias s idx = .payload) :
    ∃ j : Byte, j.toNat < (Out.plLength bias s).toNat ∧ Out.psel bias s j = idx := by
  obtain ⟨hle, hlt⟩ := (idxClass_eq_payload_iff bias s idx).mp h
  have hsum := plOffset_add_plLength bias s
  have hj : (idx - Out.plOffset bias s).toNat = idx.toNat - (Out.plOffset bias s).toNat := BitVec.toNat_sub_of_le hle
  have hjlt : (idx - Out.plOffset bias s).toNat < (Out.plLength bias s).toNat := by omega
  refine ⟨_, hjlt, BitVec.eq_of_toNat_eq ?_⟩
  rw [psel_toNat bias hjlt, hj, Nat.add_sub_cancel' hle]

/-- R149 (e): a payload needs a ready boundary and an `afc` that announces one. -/
theorem payload_present_of_plLength_pos (bias : AfLenBias) {s : State} (h : 0 < (Out.plLength bias s).toNat) :
    Out.bndReady s = true ∧ Out.plPresent s = true := by
  have hlt : (Out.plOffset bias s).toNat < 184 := by
    have hsum := plOffset_add_plLength bias s
    omega
  rw [plPresent_eq, ← afc_eq_slice]
  obtain ⟨-, hoffset, -⟩ | ⟨-, -, hoffset, -⟩ | ⟨hready, hafc, -⟩ | ⟨-, -, hoffset, -⟩ | ⟨hready, hafc, -⟩ :=
    boundary_cases bias s
  case inr.inr.inl => exact ⟨hready, by rw [hafc]; rfl⟩
  case inr.inr.inr.inr => exact ⟨hready, by rw [hafc]; rfl⟩
  all_goals simp [hoffset] at hlt

/-- As many of the first `off + len` numbers are at least `off` as follow it. -/
theorem length_filter_range_add {p : Nat → Bool} {off len : Nat} (hp : ∀ i < off + len, (p i = true ↔ off ≤ i)) :
    ((List.range (off + len)).filter p).length = len := by
  have hbelow : (List.range off).filter p = [] := List.filter_eq_nil_iff.mpr fun i hi => by
    have hlt := List.mem_range.mp hi
    rw [hp i (by omega)]
    omega
  have habove : ((List.range len).map (off + ·)).filter p = (List.range len).map (off + ·) :=
    List.filter_eq_self.mpr fun i hi => by
      obtain ⟨k, hk, rfl⟩ := List.mem_map.mp hi
      have hlt := List.mem_range.mp hk
      exact (hp _ (by omega)).mpr (Nat.le_add_right off k)
  rw [List.range_add, List.filter_append, hbelow, habove, List.nil_append, List.length_map, List.length_range]

/-- R149 (f). -/
theorem length_payload_indexes (bias : AfLenBias) (s : State) :
    ((List.range 184).filter fun i => Out.idxClass bias s (BitVec.ofNat 8 i) == .payload).length =
      (Out.plLength bias s).toNat := by
  have hsum := plOffset_add_plLength bias s
  rw [← hsum]
  refine length_filter_range_add fun i hi => ?_
  rw [hsum] at hi
  rw [beq_iff_eq, idxClass_eq_payload_iff, BitVec.toNat_ofNat, Nat.mod_eq_of_lt (by omega)]
  exact and_iff_left hi

/-- Settles O32: the payload indexes are those from the offset on, and the selector adds the offset. -/
theorem boundaryLaws : Obligations.BoundaryLaws := by
  intro bias s off len
  have hsum : off + len = 184 := plOffset_add_plLength bias s
  have hpayload := idxClass_eq_payload_iff bias s
  have hpsel (j : Byte) (hj : j.toNat < len) : (Out.psel bias s j).toNat = off + j.toNat := psel_toNat bias hj
  refine ⟨hsum, fun idx hidx => (hpayload idx).trans (and_iff_left hidx), fun idx => idxClass_eq_adapt_iff bias s,
    ⟨fun j hj => ?_, fun j k hj hk hjk => ?_, fun idx => exists_psel_of_payload bias⟩,
    payload_present_of_plLength_pos bias, length_payload_indexes bias s⟩
  · have hlt : (Out.psel bias s j).toNat < 184 := by rw [hpsel j hj]; omega
    exact ⟨hlt, (hpayload _).mpr ⟨by rw [hpsel j hj]; exact Nat.le_add_right off _, hlt⟩⟩
  · rw [BitVec.lt_def, hpsel j hj, hpsel k hk]
    exact Nat.add_lt_add_left hjk off

end Sys2Proof.Machine
end

section
/-! PROOF. What the boundary reads of AFL and AFLV (O33; R148, R150). Where `afc` is not 11, each boundary output is a function of
`fields_valid` and the presence flags, none of which reads the AFL byte. -/

namespace Sys2Proof.Machine

open Sys2Proof.Config

section
variable {s : State} (h : Header.afc s.hdr ≠ 0b11#2)
include h

/-- R144 where `afc` is not 11. -/
theorem plOffset_of_afc_ne (bias : AfLenBias) :
    Out.plOffset bias s = if Out.fieldsValid s && Out.plPresent s then 0#8 else 184#8 := by
  rw [Out.plOffset, Out.afcValue, bndReady_of_afc_ne h, plPresent_eq, ← afc_eq_slice]
  cases Out.fieldsValid s with
  | false => rfl
  | true =>
    obtain hafc | hafc | hafc | hafc := afc_cases (Header.afc s.hdr)
    · rw [hafc]; rfl
    · rw [hafc]; rfl
    · rw [hafc]; rfl
    · exact absurd hafc h

/-- R146 where `afc` is not 11. -/
theorem idxClass_of_afc_ne (bias : AfLenBias) (idx : Byte) :
    Out.idxClass bias s idx =
      if !Out.fieldsValid s || decide (dataBytes ≤ idx.toNat) then .none
      else if Out.plPresent s then .payload else if Out.afPresent s then .adapt else .none := by
  rw [Out.idxClass, Out.afcValue, bndReady_of_afc_ne h, plPresent_eq, afPresent_eq, ← afc_eq_slice]
  obtain hafc | hafc | hafc | hafc := afc_cases (Header.afc s.hdr)
  · rw [hafc]; rfl
  · rw [hafc]; rfl
  · rw [hafc]; rfl
  · exact absurd hafc h

end

/-- The bits of a vector packed with one flag on top, but the flag's own, do not depend on the flag. -/
theorem getLsbD_ofBool_append_of_ne {n b : Nat} (h : b ≠ n) (x y : Bool) (v : BitVec n) :
    (BitVec.ofBool x ++ v).getLsbD b = (BitVec.ofBool y ++ v).getLsbD b := by
  rw [BitVec.getLsbD_append, BitVec.getLsbD_append]
  by_cases hlow : b < n
  · simp [hlow]
  · have hhigh : 1 ≤ b - n := by omega
    simp [hlow, BitVec.getLsbD_of_ge _ _ hhigh]

theorem getLsbD_append_congr {m n b : Nat} {v w : BitVec n} (h : v.getLsbD b = w.getLsbD b) (x : BitVec m) :
    (x ++ v).getLsbD b = (x ++ w).getLsbD b := by
  rw [BitVec.getLsbD_append, BitVec.getLsbD_append, h]

/-- R30: AFL_LOADED is bit 4 of `status`, and no other bit. -/
theorem status_bit_of_ne_four (e : BitVec 2) (ready x y : Bool) (low : BitVec 4) {b : Nat} (h : b ≠ 4) :
    (e ++ (BitVec.ofBool ready ++ (BitVec.ofBool x ++ low)) : BitVec 8).getLsbD b =
      (e ++ (BitVec.ofBool ready ++ (BitVec.ofBool y ++ low)) : BitVec 8).getLsbD b :=
  getLsbD_append_congr (getLsbD_append_congr (getLsbD_ofBool_append_of_ne h x y low) _) e

/-- R145, R147: the length and the selector read the boundary through the offset alone. -/
theorem pselValid_of_plOffset_eq {bias : AfLenBias} {s t : State} (h : Out.plOffset bias t = Out.plOffset bias s)
    (pj : Byte) : Out.pselValid bias t pj = Out.pselValid bias s pj := by
  rw [Out.pselValid, Out.pselValid, Out.plLength, Out.plLength, h]

theorem psel_of_plOffset_eq {bias : AfLenBias} {s t : State} (h : Out.plOffset bias t = Out.plOffset bias s) (pj : Byte) :
    Out.psel bias t pj = Out.psel bias s pj := by
  rw [Out.psel, Out.psel, pselValid_of_plOffset_eq h, h]

/-- Settles O33: where `afc` is not 11 both states have the same valid fields and presence flags, hence the same boundary and
conditions; in `status` only bit 4 reads AFLV. -/
theorem aflIsReadOnlyWhenBothArePresent : Obligations.AflIsReadOnlyWhenBothArePresent := by
  refine fun bias s afl aflv idx pj => ⟨⟨rfl, rfl⟩, fun hafc => ?_⟩
  rw [← afc_eq_slice] at hafc
  let t : State := { s with afl := afl, aflv := aflv }
  have hafct : Header.afc t.hdr ≠ 0b11#2 := hafc
  have hready : Out.bndReady t = Out.bndReady s := (bndReady_of_afc_ne hafct).trans (bndReady_of_afc_ne hafc).symm
  have herr : Out.aflErr bias t = Out.aflErr bias s := (aflErr_of_afc_ne bias hafct).trans (aflErr_of_afc_ne bias hafc).symm
  have hoffset : Out.plOffset bias t = Out.plOffset bias s :=
    (plOffset_of_afc_ne hafct bias).trans (plOffset_of_afc_ne hafc bias).symm
  have hclass : Out.idxClass bias t idx = Out.idxClass bias s idx :=
    (idxClass_of_afc_ne hafct bias idx).trans (idxClass_of_afc_ne hafc bias idx).symm
  have hcode : Out.errCode bias t = Out.errCode bias s := by rw [Out.errCode, Out.errCode, herr]; rfl
  refine ⟨hready, herr, hoffset, congrArg (184#8 - ·) hoffset, congrArg IdxClass.code hclass,
    psel_of_plOffset_eq hoffset pj, pselValid_of_plOffset_eq hoffset pj, congrArg ErrCode.code hcode, fun b hb => ?_⟩
  change (Out.status bias t).getLsbD b = (Out.status bias s).getLsbD b
  rw [Out.status, Out.status, hcode, hready]
  exact status_bit_of_ne_four _ _ _ _ _ hb

end Sys2Proof.Machine
end

section
/-! PROOF. The control commands of 42_control.md: CLR (O15; R171) and NOP (O12; R170). -/

namespace Sys2Proof.Machine

/-! ### CLR -/

/-- R112 at reset: `afc` is 00, the reserved value, with neither field present. -/
theorem presence_flags_reset :
    Out.afPresent State.reset = false ∧ Out.plPresent State.reset = false ∧ Out.afcRsv State.reset = true := by
  obtain ⟨-, -, h00, -⟩ := presenceFlagsOfEachAfc State.reset
  exact h00 rfl

/-- R171, R240: a step whose cycle presents CLR leaves the reset values, with `rst` low or high. -/
theorem step_of_cmd_clr {s : State} {c : Cycle} {rest : List Cycle} (hinputs : s.inputs = c :: rest)
    (hcmd : c.cmd = 0b11#2) : step s = .next { State.reset with inputs := rest } := by
  rw [step_cons hinputs, clockEdge_of_rst_or_clr (.inr hcmd)]
  rfl

/-- Settles O15: CLR is `resetRegisters`. The outputs read the registers alone, so they are those of the reset state, where no header
is loaded: the validator shows nothing, and the boundary flags fall with `fields_valid`. -/
theorem clrBeginsANewPass : Obligations.ClrBeginsANewPass := by
  refine ⟨fun s => ⟨resetRegisters s, rfl, rfl, rfl, rfl, rfl, rfl, rfl, fun bias idx pj => ?_⟩, rfl,
    fun s c rest => step_of_cmd_clr⟩
  rw [resetRegisters, outputs_with_inputs]
  obtain ⟨hok, herr⟩ := (no_sync_flag_iff State.reset).mpr rfl
  have hvalid : Out.fieldsValid State.reset = false := NoHeader.fieldsValid ⟨rfl, rfl⟩
  have hready : Out.bndReady State.reset = false := bndReady_of_not_fieldsValid hvalid
  obtain ⟨haf, hpl, hrsv⟩ := presence_flags_reset
  exact ⟨rfl, hok, herr, rfl, hvalid, haf, hpl, rfl, hready, aflErr_of_not_fieldsValid bias hvalid,
    pselValid_of_not_bndReady bias hready pj, status_reset bias, hrsv⟩

/-! ### NOP -/

/-- R73: the command code 00 is NOP, whatever `data`. -/
theorem decode_word_of_cmd_nop {c : Cycle} (h : c.cmd = 0b00#2) : decode c.word = .nop :=
  decode_of_cmd_nop (by rw [Cycle.word, cmdField_commandWord, h])

/-- R170: a step whose cycle presents NOP, `rst` low, does nothing but take that cycle from the run. -/
theorem step_of_cmd_nop {s : State} {c : Cycle} {rest : List Cycle} (hinputs : s.inputs = c :: rest)
    (hcmd : c.cmd = 0b00#2) (hrst : c.rst = false) : step s = .next { s with inputs := rest } := by
  rw [step_cons hinputs, clockEdge_of_rst_low hrst, decode_word_of_cmd_nop hcmd]
  rfl

/-- Settles O12: after a NOP the state differs from the one before it in the host's cycles alone, which no output reads. -/
theorem nopHoldsEveryRegister : Obligations.NopHoldsEveryRegister := by
  refine ⟨fun _ => rfl, fun s c rest hinputs hcmd => ⟨fun hrst => ?_, step_of_rst_high hinputs⟩⟩
  exact ⟨_, step_of_cmd_nop hinputs hcmd hrst, ⟨rfl, rfl, rfl, rfl, rfl⟩, rfl,
    fun bias idx pj => outputs_with_inputs bias s rest idx pj⟩

end Sys2Proof.Machine
end

section
/-! PROOF. The conditions of 60_exceptions.md: the condition code (O36), the conditions that leave the pass going on (O37), and the
terminal state: its entry (O38), the commands in it (O39) and the ways out of it (O40). -/

namespace Sys2Proof.Machine

open Sys2Proof.Config

/-! ### The condition code, by the condition that holds (R201) -/

section
variable (bias : AfLenBias) {s : State}

theorem errCode_of_serr (h : s.serr = true) : Out.errCode bias s = .sync := by
  simp [Out.errCode, h]

theorem errCode_of_reserved (hvalid : Out.fieldsValid s = true) (hafc : s.hdr.extractLsb' 4 2 = 0b00#2) :
    Out.errCode bias s = .afcrsv := by
  rw [errCode_eq_afcrsv_iff, qualified_of_fieldsValid hvalid, afcRsv_eq, hafc]
  rfl

/-- R202: AFCRSV and AFLEN need different values of `afc`. -/
theorem aflErr_of_reserved (hafc : s.hdr.extractLsb' 4 2 = 0b00#2) : Out.aflErr bias s = false :=
  aflErr_of_afc_ne bias (by rw [afc_eq_slice, hafc]; decide)

/-- Below SYNC and AFCRSV the code follows the length error. -/
theorem errCode_of_not_reserved (hserr : s.serr = false)
    (hrsv : ¬(Out.fieldsValid s = true ∧ s.hdr.extractLsb' 4 2 = 0b00#2)) :
    Out.errCode bias s = if Out.aflErr bias s then .aflen else .none := by
  have hcond : (Out.fieldsValid s && Header.afc s.hdr == 0b00#2) = false := by
    rw [← Bool.not_eq_true, Bool.and_eq_true, beq_iff_eq, afc_eq_slice]
    exact hrsv
  simp [Out.errCode, hserr, hcond]

theorem errCode_of_aflErr (herr : Out.aflErr bias s = true) : Out.errCode bias s = .aflen := by
  obtain ⟨hvalid, hafc, -⟩ := (aflErr_iff bias s).mp herr
  obtain ⟨-, hserr⟩ := (fieldsValid_iff s).mp hvalid
  rw [errCode_of_not_reserved bias hserr (by simp [hafc]), herr]
  rfl

end

/-- Settles O36: the chain of R201, branch by branch; a length error has `afc = 11` and valid fields, which SERR excludes. -/
theorem errCodeReportsTheFirstCondition : Obligations.ErrCodeReportsTheFirstCondition := by
  intro bias s idx pj e rsv
  refine ⟨fun hserr => congrArg ErrCode.code (errCode_of_serr bias hserr),
    fun _ ⟨hvalid, hafc⟩ => congrArg ErrCode.code (errCode_of_reserved bias hvalid hafc),
    fun _ _ herr => congrArg ErrCode.code (errCode_of_aflErr bias herr), fun hserr hrsv herr => ?_, ?_, fun hserr => ?_⟩
  · have hcode : Out.errCode bias s = .none := by simp [errCode_of_not_reserved bias hserr hrsv, herr]
    exact congrArg ErrCode.code hcode
  · rintro ⟨⟨-, hafc⟩, herr⟩
    simp [aflErr_of_reserved bias hafc] at herr
  · have hvalid := not_fieldsValid_of_serr hserr
    exact ⟨by simp [rsv, hvalid], aflErr_of_not_fieldsValid bias hvalid⟩

/-! ### No payload -/

section
variable {bias : AfLenBias} {s : State}

/-- R145: offset 184 leaves no payload. -/
theorem plLength_of_plOffset (h : Out.plOffset bias s = 184#8) : Out.plLength bias s = 0#8 := by
  rw [Out.plLength, h]
  rfl

/-- R146: a reserved `afc` and a length error leave every index without a class. -/
theorem idxClass_of_reserved_or_aflErr (h : s.hdr.extractLsb' 4 2 = 0b00#2 ∨ Out.aflErr bias s = true) (idx : Byte) :
    Out.idxClass bias s idx = .none := by
  rw [← afc_eq_slice] at h
  obtain ⟨-, -, hclass⟩ | ⟨-, -, -, hclass⟩ | ⟨-, hafc, -⟩ | ⟨-, hafc, -⟩ | ⟨-, hafc, herr, -⟩ := boundary_cases bias s
  · exact hclass idx
  · exact hclass idx
  · simp [hafc, aflErr_of_afc_ne] at h
  · simp [hafc, aflErr_of_afc_ne] at h
  · simp [hafc, herr] at h

/-- R208: a boundary that is not ready presents no payload, whatever the queries. -/
theorem noPayload_of_not_bndReady (h : Out.bndReady s = false) : NoPayload bias s := by
  have hoffset : Out.plOffset bias s = 184#8 := plOffset_of_no_payload (.inl h)
  have hselects (pj : Byte) := pselValid_of_not_bndReady bias h pj
  exact ⟨h, hoffset, plLength_of_plOffset hoffset, fun pj => ⟨hselects pj, by simp [Out.psel, hselects pj]⟩,
    idxClass_of_not_bndReady bias h⟩

/-- R208, R211: the terminal state presents no payload. -/
theorem noPayload_of_serr (h : s.serr = true) : NoPayload bias s :=
  noPayload_of_not_bndReady (bndReady_of_not_fieldsValid (not_fieldsValid_of_serr h))

end

/-- R201: AFLEN is reported for a length error alone. -/
theorem errCode_ne_aflen {bias : AfLenBias} {s : State} (herr : Out.aflErr bias s = false) :
    Out.errCode bias s ≠ .aflen := by
  simp only [Out.errCode, herr, Bool.false_eq_true, if_false]
  split_ifs <;> simp

/-- Settles O37: both conditions are among the cases of R144 and R146 without payload, and need valid fields, so SERR is 0. -/
theorem nonFatalConditionsEmptyThePayload : Obligations.NonFatalConditionsEmptyThePayload := by
  refine fun bias s => ⟨fun hvalid hafc haflv hover => ?_, fun hvalid hafc => ?_, fun hw hserr hgood hafc => ?_⟩
  · have herr : Out.aflErr bias s = true := (aflErr_iff bias s).mpr ⟨hvalid, hafc, haflv, hover⟩
    exact ⟨plLength_of_plOffset (plOffset_of_no_payload (.inr (.inr (.inr herr)))),
      idxClass_of_reserved_or_aflErr (.inr herr), errCode_of_aflErr bias herr, ((fieldsValid_iff s).mp hvalid).2,
      fun hw => ⟨_, execLdhdr_eq hw s, errCode_ne_aflen (aflErr_of_not_aflv bias rfl)⟩⟩
  · exact ⟨plLength_of_plOffset (plOffset_of_no_payload (.inr (.inl hafc))),
      idxClass_of_reserved_or_aflErr (.inl hafc), errCode_of_reserved bias hvalid hafc, ((fieldsValid_iff s).mp hvalid).2⟩
  · obtain ⟨hload, -⟩ := ldhdrLoadsTheHeaderWord
    obtain ⟨t, hexec, hhdr, -, -, -, -, -, -, -, -, -, -, hvalid⟩ := hload hw s
    have hvalid : Out.fieldsValid t = true := by simp [hvalid, hserr, hgood]
    exact ⟨t, hexec, hvalid, errCode_of_reserved bias hvalid (by rw [hhdr, hafc])⟩

/-! ### The terminal state -/

/-- Settles O38: LDHDR raises SERR on a bad top byte, and SERR alone decides the code and the payload. -/
theorem badSyncByteEntersTheTerminalState : Obligations.BadSyncByteEntersTheTerminalState := by
  intro bias hw s hbad
  obtain ⟨hload, -⟩ := ldhdrLoadsTheHeaderWord
  obtain ⟨t, hexec, hhdr, hhv, hafl, haflv, hserr, hinputs, -, -, -, hsyncErr, -⟩ := hload hw s
  have hserr : t.serr = true := by simp [hserr, hbad]
  exact ⟨t, hexec, hserr, hhdr, hhv, hafl, haflv, hinputs, hserr, by simp [hsyncErr, hbad], not_fieldsValid_of_serr hserr,
    errCode_of_serr bias hserr, noPayload_of_serr hserr⟩

/-- Settles O39: LDHDR keeps a raised SERR, and the outputs follow from SERR. -/
theorem commandsInTheTerminalState : Obligations.CommandsInTheTerminalState := by
  refine fun s hserr => ⟨fun hw => ?_, fun _ => rfl, rfl,
    fun bias => ⟨errCode_of_serr bias hserr, not_fieldsValid_of_serr hserr, noPayload_of_serr hserr⟩⟩
  refine (execLdhdr_eq hw s).trans ?_
  rw [hserr, Bool.true_or]

/-- R73: only the command code 11 is CLR. -/
theorem cmd_of_decode_word_clr {c : Cycle} (h : decode c.word = .clr) : c.cmd = 0b11#2 := by
  have hcmd := cmdField_encode_decode c.word
  rw [h, Cycle.word, cmdField_commandWord] at hcmd
  exact hcmd.symm

/-- R210: an edge of neither reset nor CLR keeps the terminal state. -/
theorem clockEdge_keeps_serr {c : Cycle} (hrst : c.rst = false) (hcmd : c.cmd ≠ 0b11#2) {s t : State}
    (hserr : s.serr = true) (h : clockEdge c s = .next t) : t.serr = true := by
  rw [clockEdge_of_rst_low hrst] at h
  obtain ⟨-, -, -, hclr⟩ := registersAreWrittenOnlyByTheirCommands _ s t h
  exact Bool.not_eq_false _ |>.mp fun ht => hcmd (cmd_of_decode_word_clr (hclr ht hserr))

/-- R210, R240, R171: a step whose cycle is reset or CLR leaves the reset values. -/
theorem step_of_rst_or_clr {s : State} {c : Cycle} {rest : List Cycle} (hinputs : s.inputs = c :: rest)
    (h : c.rst = true ∨ c.cmd = 0b11#2) : step s = .next { State.reset with inputs := rest } :=
  h.elim (step_of_rst_high hinputs) (step_of_cmd_clr hinputs)

/-- Settles O40: every other edge keeps SERR, so a step that clears it was reset or CLR, and a run without them keeps it. -/
theorem onlyClrAndResetLeaveTheTerminalState : Obligations.OnlyClrAndResetLeaveTheTerminalState := by
  refine ⟨fun s t hserr hstep hcleared => ?_, fun s c rest => step_of_rst_or_clr, fun s cs hserr hcs => ?_⟩
  · obtain ⟨c, rest, hinputs, hedge⟩ := step_cases hstep
    have hleaves : c.rst = true ∨ c.cmd = 0b11#2 := by
      by_contra hother
      obtain ⟨hrst, hcmd⟩ := not_or.mp hother
      have hkept := clockEdge_keeps_serr (s := { s with inputs := rest }) (by simpa using hrst) hcmd hserr hedge
      simp [hcleared] at hkept
    rw [step_of_rst_or_clr hinputs hleaves] at hstep
    cases hstep
    exact ⟨c, rest, hinputs, hleaves, rfl⟩
  · obtain ⟨t, hrun⟩ := run_next cs s
    have ht : t.serr = true := run_keeps_of_mem (P := fun u => u.serr = true)
      (fun c hc _ _ => clockEdge_keeps_serr (hcs c hc).1 (hcs c hc).2) hserr hrun
    exact ⟨t, hrun, ht, fun bias => ⟨errCode_of_serr bias ht, noPayload_of_serr ht⟩⟩

end Sys2Proof.Machine
end

section
/-! PROOF. The abstract host of 60_exceptions.md (O52; R214 to R216): each whole packet becomes one record, which no earlier packet
has a part in, and the first reads that are no whole packet end the pass. -/

namespace Sys2Proof.Machine

open Sys2Proof.Config

/-- A packet the byte source gives whole: its header word, its data bytes and the queries the host makes of it. -/
abbrev WholePacket := HeaderWord × Vector Byte 184 × List (Byte × Byte)

/-- The header has a good sync byte (R101). -/
abbrev WholePacket.Good (p : WholePacket) : Prop := p.1.extractLsb' 24 8 = 0x47#8

/-- The two reads that give the packet (R214 steps 1 and 5). -/
def WholePacket.reads (p : WholePacket) : PacketReads :=
  .mk (.full (p.1.extractLsb' 24 8) (p.1.extractLsb' 16 8) (p.1.extractLsb' 8 8) (p.1.extractLsb' 0 8)) (.full p.2.1) p.2.2

/-- The state in which the host samples the packet's boundary (R214 step 6). -/
def WholePacket.loaded (p : WholePacket) (s : State) : State := issueAfl p.2.1 (issue (.ldhdr p.1) s)

/-- The packet's record (R214 step 7), from the state before its LDHDR. -/
def WholePacket.record (bias : AfLenBias) (offset : Nat) (p : WholePacket) (s : State) : PacketRecord :=
  emitRecord bias offset p.2.1 p.2.2 (issue (.ldhdr p.1) s) (p.loaded s)

open WholePacket

/-! ### The commands of one packet -/

theorem issue_ldhdr_hdr (hw : HeaderWord) (s : State) : (issue (.ldhdr hw) s).hdr = hw := by rw [issue_ldhdr]

theorem issueAfl_inputs (data : Vector Byte 184) (s : State) : (issueAfl data s).inputs = s.inputs := by
  unfold issueAfl; split <;> simp

section
variable (p : WholePacket) (s : State)

@[simp] theorem WholePacket.loaded_hdr : (p.loaded s).hdr = p.1 := by simp [WholePacket.loaded, issue_ldhdr]

@[simp] theorem WholePacket.loaded_hv : (p.loaded s).hv = true := by simp [WholePacket.loaded, issue_ldhdr]

@[simp] theorem WholePacket.loaded_inputs : (p.loaded s).inputs = s.inputs := by
  simp [WholePacket.loaded, issue_ldhdr, issueAfl_inputs]

/-- R214 step 6: with `afc = 11` data byte 0 is the AFL byte. -/
theorem WholePacket.loaded_afl (hafc : p.1.extractLsb' 4 2 = 0b11#2) :
    (p.loaded s).afl = p.2.1[0] ∧ (p.loaded s).aflv = true := by
  rw [WholePacket.loaded, issueAfl_both (by rw [issue_ldhdr_hdr, afc_eq_slice, hafc])]
  exact ⟨rfl, rfl⟩

end

/-- R214 step 4: the host samples the fields and flags of the packet's own header. -/
theorem WholePacket.record_header (bias : AfLenBias) (offset : Nat) (p : WholePacket) (s : State) :
    (p.record bias offset s).header =
      { fields := headerFields p.1, afPresent := p.1.getLsbD 5, plPresent := p.1.getLsbD 4,
        afcRsv := p.1.extractLsb' 4 2 == 0b00#2 } := by
  have hdr := issue_ldhdr_hdr p.1 s
  rw [WholePacket.record, emitRecord, sampleFields, afcRsv_eq, Out.afPresent, Out.plPresent, hdr]
  rfl

theorem badSync_of_good {p : WholePacket} (h : p.Good) : badSync p.1 = false := by rw [badSync_eq, h]; rfl

/-- R100: LDHDR leaves nothing of the packet before but SERR. -/
theorem issue_ldhdr_congr (hw : HeaderWord) {s t : State} (hserr : s.serr = t.serr) (hinputs : s.inputs = t.inputs) :
    issue (.ldhdr hw) s = issue (.ldhdr hw) t := by
  rw [issue_ldhdr, issue_ldhdr, hserr, hinputs]

section
variable {p : WholePacket} {s : State} (hp : p.Good) (hserr : s.serr = false)
include hp hserr

theorem WholePacket.loaded_serr : (p.loaded s).serr = false := by
  simp [WholePacket.loaded, issue_ldhdr, hserr, badSync_of_good hp]

/-- R100, R245: a packet's record is the same with another good packet framed before it. -/
theorem WholePacket.record_after_loaded (bias : AfLenBias) (offset : Nat) (q : WholePacket) :
    q.record bias offset (p.loaded s) = q.record bias offset s := by
  have hsame : issue (.ldhdr q.1) (p.loaded s) = issue (.ldhdr q.1) s :=
    issue_ldhdr_congr q.1 (by rw [loaded_serr hp hserr, hserr]) (loaded_inputs p s)
  have hloaded : q.loaded (p.loaded s) = q.loaded s := congrArg (issueAfl q.2.1) hsame
  rw [WholePacket.record, WholePacket.record, hsame, hloaded]

/-! ### The boundary of one packet (R142 to R144) -/

theorem WholePacket.loaded_fieldsValid : Out.fieldsValid (p.loaded s) = true :=
  (fieldsValid_iff _).mpr ⟨(syncOk_iff _).mpr ⟨loaded_hv p s, by rw [loaded_hdr, hp]⟩, loaded_serr hp hserr⟩

/-- The host issues LDAFL where the boundary waits for it. -/
theorem WholePacket.loaded_bndReady : Out.bndReady (p.loaded s) = true := by
  refine (bndReady_iff _).mpr ⟨loaded_fieldsValid hp hserr, ?_⟩
  rw [loaded_hdr, ← imp_iff_not_or]
  exact fun hafc => (loaded_afl p s hafc).2

theorem WholePacket.loaded_aflErr (bias : AfLenBias) :
    Out.aflErr bias (p.loaded s) =
      (p.1.extractLsb' 4 2 == 0b11#2 && decide (184 < p.2.1[0].toNat + bias.toNat)) := by
  rw [Bool.eq_iff_iff, aflErr_iff, loaded_hdr, Bool.and_eq_true, beq_iff_eq, decide_eq_true_eq]
  constructor
  · rintro ⟨-, hafc, -, hover⟩
    rw [(loaded_afl p s hafc).1] at hover
    exact ⟨hafc, hover⟩
  · rintro ⟨hafc, hover⟩
    obtain ⟨hafl, haflv⟩ := loaded_afl p s hafc
    exact ⟨loaded_fieldsValid hp hserr, hafc, haflv, by rwa [hafl]⟩

theorem WholePacket.loaded_plOffset_of_fits {bias : AfLenBias} (hafc : p.1.extractLsb' 4 2 = 0b11#2)
    (hfits : p.2.1[0].toNat + bias.toNat ≤ 184) :
    (Out.plOffset bias (p.loaded s)).toNat = p.2.1[0].toNat + bias.toNat := by
  have herr : Out.aflErr bias (p.loaded s) = false := by simp [loaded_aflErr hp hserr, Nat.not_lt.mpr hfits]
  obtain ⟨hoffset, -⟩ := plOffset_of_both (loaded_bndReady hp hserr) (by rwa [loaded_hdr]) herr
  rw [hoffset, (loaded_afl p s hafc).1]

theorem WholePacket.loaded_plOffset_of_over {bias : AfLenBias} (hafc : p.1.extractLsb' 4 2 = 0b11#2)
    (hover : 184 < p.2.1[0].toNat + bias.toNat) : Out.plOffset bias (p.loaded s) = 184#8 :=
  plOffset_of_no_payload (.inr (.inr (.inr (by simp [loaded_aflErr hp hserr, hafc, hover]))))

/-! ### The framing loop -/

/-- R214: one iteration of the loop on a whole packet. -/
theorem framePackets_cons_whole (bias : AfLenBias) (offset : Nat) (rest : List PacketReads) :
    framePackets bias offset (p.reads :: rest) s =
      emitThen (p.record bias offset s) (framePackets bias (offset + 188) rest (p.loaded s)) := by
  have hbytes : Header.ofBytes (p.1.extractLsb' 24 8) (p.1.extractLsb' 16 8) (p.1.extractLsb' 8 8) (p.1.extractLsb' 0 8) =
      p.1 := by
    rw [Header.ofBytes]
    iterate 3 rw [BitVec.extractLsb'_append_extractLsb'_eq_extractLsb' (by decide)]
    exact BitVec.extractLsb'_eq_self
  have hsync := sync_test_after_ldhdr p.1 hserr
  rw [badSync_of_good hp] at hsync
  simp only [framePackets, WholePacket.reads, hbytes, hsync]
  rfl

end

/-- The records of whole packets framed one after another from the stream offset `offset`. -/
def recordsFrom (bias : AfLenBias) (offset : Nat) (ps : List WholePacket) (s : State) : List PacketRecord :=
  ps.mapIdx fun n p => p.record bias (offset + 188 * n) s

theorem recordsFrom_length (bias : AfLenBias) (offset : Nat) (ps : List WholePacket) (s : State) :
    (recordsFrom bias offset ps s).length = ps.length :=
  List.length_mapIdx

theorem recordsFrom_getElem? (bias : AfLenBias) (offset : Nat) {ps : List WholePacket} {n : Nat} {p : WholePacket}
    (h : ps[n]? = some p) (s : State) :
    (recordsFrom bias offset ps s)[n]? = some (p.record bias (offset + 188 * n) s) := by
  rw [recordsFrom, List.getElem?_mapIdx, h, Option.map_some]

theorem recordsFrom_cons {p : WholePacket} {s : State} (hp : p.Good) (hserr : s.serr = false) (bias : AfLenBias)
    (offset : Nat) (ps : List WholePacket) :
    recordsFrom bias offset (p :: ps) s = p.record bias offset s :: recordsFrom bias (offset + 188) ps (p.loaded s) := by
  have hoffset (n : Nat) : offset + 188 * (n + 1) = offset + 188 + 188 * n := by omega
  simp [recordsFrom, List.mapIdx_cons, record_after_loaded hp hserr, hoffset]

theorem foldr_emitThen (es : List PacketRecord) (r : PassResult) :
    es.foldr emitThen r = { r with packets := es ++ r.packets } := by
  induction es with
  | nil => rfl
  | cons e es ih => rw [List.foldr_cons, ih]; rfl

/-- R214: the host emits whole packets and goes on after them with SERR 0. -/
theorem framePackets_whole (bias : AfLenBias) {ps : List WholePacket} (hps : ∀ p ∈ ps, p.Good) (offset : Nat) {s : State}
    (hserr : s.serr = false) :
    ∃ u : State, u.serr = false ∧ ∀ more, framePackets bias offset (ps.map WholePacket.reads ++ more) s =
      (recordsFrom bias offset ps s).foldr emitThen (framePackets bias (offset + 188 * ps.length) more u) := by
  induction ps generalizing offset s with
  | nil => exact ⟨s, hserr, fun _ => rfl⟩
  | cons p ps ih =>
    obtain ⟨hp, hps⟩ := List.forall_mem_cons.mp hps
    obtain ⟨u, hu, hframe⟩ := ih hps (offset + 188) (loaded_serr hp hserr)
    have hend : offset + 188 * (ps.length + 1) = offset + 188 + 188 * ps.length := by omega
    refine ⟨u, hu, fun more => ?_⟩
    rw [List.map_cons, List.cons_append, framePackets_cons_whole hp hserr, hframe, recordsFrom_cons hp hserr,
      List.foldr_cons, List.length_cons, hend]

/-- R214, R217 (a): the same of a pass, which begins with CLR. -/
theorem framePass_whole (bias : AfLenBias) {ps : List WholePacket} (hps : ∀ p ∈ ps, p.Good) (s : State) :
    ∃ u : State, u.serr = false ∧ ∀ more, let r := framePackets bias (188 * ps.length) more u
      framePass bias (ps.map WholePacket.reads ++ more) s =
        { r with packets := recordsFrom bias 0 ps (resetRegisters s) ++ r.packets } := by
  obtain ⟨u, hu, hframe⟩ := framePackets_whole bias hps 0 (resetRegisters_serr s)
  rw [Nat.zero_add] at hframe
  exact ⟨u, hu, fun more => (hframe more).trans (foldr_emitThen _ _)⟩

/-! ### The end of a pass (R215) -/

/-- How R215's table ends the pass at a header read, if it does before a sync byte is seen. -/
def HeaderRead.ending : HeaderRead → Option PassEnd
  | .endOfInput => some .endOfInput
  | .short _ _ => some .truncatedPacket
  | .full _ _ _ _ => none
  | .failed e => some (.byteSourceError e)

/-- How R215's table ends the pass at a payload read, if it does. -/
def PayloadRead.ending : PayloadRead → Option PassEnd
  | .endOfInput => some .truncatedPacket
  | .short _ _ => some .truncatedPacket
  | .full _ => none
  | .failed e => some (.byteSourceError e)

/-- R214 step 3: after LDHDR of four stream bytes the host's test sees the first of them. -/
theorem sync_test_after_bytes (b0 b1 b2 b3 : Byte) {s : State} (hserr : s.serr = false) :
    (Out.syncErr (issue (.ldhdr (Header.ofBytes b0 b1 b2 b3)) s) ||
      Out.term (issue (.ldhdr (Header.ofBytes b0 b1 b2 b3)) s)) = (b0 != 0x47#8) := by
  rw [sync_test_after_ldhdr _ hserr, badSync_eq, slice_ofBytes_b0]

section
variable (bias : AfLenBias) (offset : Nat) {last : PacketReads} (rest : List PacketReads)

theorem framePackets_of_header_ending (s : State) {e : PassEnd} (h : last.header.ending = some e) :
    framePackets bias offset (last :: rest) s = ⟨[], e, offset⟩ := by
  rw [framePackets]
  cases hheader : last.header with
  | endOfInput => rw [hheader] at h; cases h; rfl
  | short b more => rw [hheader] at h; cases h; rfl
  | full b0 b1 b2 b3 => rw [hheader] at h; cases h
  | failed error => rw [hheader] at h; cases h; rfl

variable {s : State} (hserr : s.serr = false)
include hserr

theorem framePackets_of_bad_sync {b0 b1 b2 b3 : Byte} (hheader : last.header = .full b0 b1 b2 b3) (hbad : b0 ≠ 0x47#8) :
    framePackets bias offset (last :: rest) s = ⟨[], .invalidSyncByte, offset⟩ := by
  simp [framePackets, hheader, sync_test_after_bytes b0 b1 b2 b3 hserr, hbad]

theorem framePackets_of_payload_ending {b1 b2 b3 : Byte} (hheader : last.header = .full 0x47#8 b1 b2 b3) {e : PassEnd}
    (h : last.payload.ending = some e) : framePackets bias offset (last :: rest) s = ⟨[], e, offset⟩ := by
  have hsync := sync_test_after_bytes 0x47#8 b1 b2 b3 hserr
  simp only [framePackets, hheader, hsync]
  cases hpayload : last.payload with
  | endOfInput => rw [hpayload] at h; cases h; rfl
  | short b more => rw [hpayload] at h; cases h; rfl
  | full data => rw [hpayload] at h; cases h
  | failed error => rw [hpayload] at h; cases h; rfl

end

/-- Settles O52. After CLR the loop emits the records of the whole packets, by induction over them; a record is sampled with its own
packet loaded, and the reads after them end the pass. -/
theorem hostEmitsWholePacketsThenEnds : Obligations.HostEmitsWholePacketsThenEnds := by
  intro bias s ps last rest hps reads r endsAs
  obtain ⟨u, hu, hpass⟩ := framePass_whole bias (ps := ps) hps s
  have hlength := recordsFrom_length bias 0 ps (resetRegisters s)
  have hr : r = _ := hpass (last :: rest)
  have hends {e : PassEnd} (h : framePackets bias (188 * ps.length) (last :: rest) u = ⟨[], e, 188 * ps.length⟩) :
      endsAs e := by
    rw [h, List.append_nil] at hr
    exact ⟨by rw [hr]; exact hlength, by rw [hr], by rw [hr]⟩
  have hheader {e : PassEnd} (h : last.header.ending = some e) : endsAs e :=
    hends (framePackets_of_header_ending bias _ rest u h)
  have hcancel : framePass bias reads s = _ := (congrArg (framePass bias · s) (List.append_nil reads)).symm.trans (hpass [])
  refine ⟨fun n (p : WholePacket) hn => ?_, by rw [hcancel]; rfl, ?_, fun h => hheader (by rw [h]; rfl),
    fun b more h => hheader (by rw [h]; rfl), fun e h => hheader (by rw [h]; rfl),
    fun b0 b1 b2 b3 h hbad => hends (framePackets_of_bad_sync bias _ rest hu h hbad), fun b1 b2 b3 h => ?_⟩
  · have hp : p.Good := hps p (List.mem_of_getElem? hn)
    have hclear := resetRegisters_serr s
    have hrecord : r.packets[n]? = some (p.record bias (188 * n) (resetRegisters s)) := by
      obtain ⟨hlt, -⟩ := List.getElem?_eq_some_iff.mp hn
      rw [hr, List.getElem?_append_left (by rwa [hlength]), recordsFrom_getElem? bias 0 hn, Nat.zero_add]
    have hheader := record_header bias (188 * n) p (resetRegisters s)
    have hafc (v : BitVec 2) (h : p.1.extractLsb' 4 2 = v) : (p.loaded (resetRegisters s)).hdr.extractLsb' 4 2 = v := by
      rw [loaded_hdr, h]
    exact ⟨_, hrecord, rfl, rfl, congrArg FieldSample.fields hheader, congrArg FieldSample.afPresent hheader,
      congrArg FieldSample.plPresent hheader, congrArg FieldSample.afcRsv hheader, loaded_bndReady hp hclear,
      loaded_aflErr hp hclear bias,
      fun h => congrArg BitVec.toNat (plOffset_of_no_payload (.inr (.inl (hafc _ h)))),
      fun h => congrArg BitVec.toNat (plOffset_of_payloadOnly bias (loaded_bndReady hp hclear) (hafc _ h)),
      fun h => congrArg BitVec.toNat (plOffset_of_no_payload (.inr (.inr (.inl (hafc _ h))))),
      loaded_plOffset_of_fits hp hclear,
      fun h hover => congrArg BitVec.toNat (loaded_plOffset_of_over hp hclear h hover), plLength_toNat bias _,
      p.loaded (resetRegisters s), loaded_hdr p _, loaded_hv p _, loaded_serr hp hclear, loaded_afl p _, rfl⟩
  · rw [hcancel, hr, ← hlength, List.take_left]
    exact List.append_nil _
  · have hpayload {e : PassEnd} (hp : last.payload.ending = some e) : endsAs e :=
      hends (framePackets_of_payload_ending bias _ rest hu h hp)
    exact ⟨fun hp => hpayload (by rw [hp]; rfl), fun b more hp => hpayload (by rw [hp]; rfl),
      fun e hp => hpayload (by rw [hp]; rfl)⟩

end Sys2Proof.Machine
end

section
/-! PROOF. What is seen of a run cycle by cycle (70_reset_and_hazards.md): the outputs show the state before the edge (O10), queries
act in their own cycle alone (O11), and a packet stays visible through its window (O46). -/

namespace Sys2Proof.Machine

open Sys2Proof.Config

/-! ### The observations of a run (R243) -/

section
variable (bias : AfLenBias)

theorem observe_cons {c : Cycle} {s t : State} (h : clockEdge c s = .next t) (cs : List Cycle) :
    observe bias (c :: cs) s = outputs bias s c.idx c.pj :: observe bias cs t := by
  simp [observe, h]

theorem length_observe (cs : List Cycle) (s : State) : (observe bias cs s).length = cs.length := by
  induction cs generalizing s with
  | nil => rfl
  | cons c cs ih =>
    obtain ⟨t, hedge⟩ := clockEdge_next c s
    rw [observe_cons bias hedge, List.length_cons, List.length_cons, ih]

/-- R243: cycle n is observed in the state the first n cycles left. -/
theorem getElem?_observe {cs : List Cycle} {n : Nat} {c : Cycle} (hc : cs[n]? = some c) {s t : State}
    (hrun : run (cs.take n) s = .next t) : (observe bias cs s)[n]? = some (outputs bias t c.idx c.pj) := by
  induction cs generalizing s n with
  | nil => cases hc
  | cons d cs ih =>
    obtain ⟨u, hedge⟩ := clockEdge_next d s
    rw [observe_cons bias hedge]
    cases n with
    | zero => cases hc; cases hrun; rfl
    | succ n =>
      rw [List.take_succ_cons, run_cons hedge] at hrun
      exact ih hc hrun

/-- What the cycles of a run keep holds of the state of every observation, up to that of one further cycle, whatever it does. -/
theorem exists_state_of_mem_observe {P : State → Prop} {cs : List Cycle}
    (keeps : ∀ c ∈ cs, ∀ s t, P s → clockEdge c s = .next t → P t) (last : Cycle) {s : State} (hs : P s) {o : Outputs}
    (ho : o ∈ observe bias (cs ++ [last]) s) : ∃ t idx pj, P t ∧ o = outputs bias t idx pj := by
  induction cs generalizing s with
  | nil =>
    obtain ⟨u, hedge⟩ := clockEdge_next last s
    rw [List.nil_append, observe_cons bias hedge] at ho
    exact ⟨s, last.idx, last.pj, hs, List.mem_singleton.mp ho⟩
  | cons c cs ih =>
    obtain ⟨u, hedge⟩ := clockEdge_next c s
    obtain ⟨hc, hcs⟩ := List.forall_mem_cons.mp keeps
    rw [List.cons_append, observe_cons bias hedge] at ho
    obtain rfl | ho := List.mem_cons.mp ho
    · exact ⟨s, c.idx, c.pj, hs, rfl⟩
    · exact ih hcs (hc s u hs hedge) ho

end

/-- Settles O10: the first n cycles complete, and cycle n is observed in the state they leave. -/
theorem outputsShowTheStateBeforeTheEdge : Obligations.OutputsShowTheStateBeforeTheEdge := by
  intro bias cs s n c hc
  obtain ⟨t, hrun⟩ := run_next (cs.take n) s
  exact ⟨t, hrun, getElem?_observe bias hc hrun, length_observe bias cs s⟩

/-! ### Queries (R244) -/

/-- R28: an edge samples no query. -/
theorem clockEdge_of_sameButQueries {c d : Cycle} (h : SameButQueries c d) (s : State) :
    clockEdge c s = clockEdge d s := by
  obtain ⟨hrst, hcmd, hdata⟩ := h
  rw [clockEdge, clockEdge, Cycle.word, Cycle.word, hrst, hcmd, hdata]

theorem run_of_sameButQueries {cs ds : List Cycle} (h : List.Forall₂ SameButQueries cs ds) (s : State) :
    run cs s = run ds s := by
  induction h generalizing s with
  | nil => rfl
  | cons hcd _ ih =>
    obtain ⟨t, hedge⟩ := clockEdge_next _ s
    rw [run_cons hedge, run_cons ((clockEdge_of_sameButQueries hcd s).symm.trans hedge), ih]

/-- Settles O11: no edge samples a query, so both runs pass through the same states, and each cycle's ports answer its own query. -/
theorem queriesActInTheirCycleAndChangeNoState : Obligations.QueriesActInTheirCycleAndChangeNoState := by
  refine fun bias cs ds s h => ⟨run_of_sameButQueries h s, fun n d hd => ?_⟩
  obtain ⟨t, hrun⟩ := run_next (cs.take n) s
  have hrun' : run (ds.take n) s = .next t := (run_of_sameButQueries (List.forall₂_take n h) s).symm.trans hrun
  exact ⟨t, hrun, by rw [getElem?_observe bias hd hrun']; rfl⟩

/-! ### The window of a packet (R246) -/

/-- The registers the field and validator outputs read are those of `s`. -/
def KeepsHeader (s t : State) : Prop := t.hv = s.hv ∧ t.hdr = s.hdr ∧ t.serr = s.serr

/-- Only NOP and LDAFL neither load a header nor begin a pass. -/
theorem command_of_inWindow {c : Cycle} (h : InWindow c) :
    c.command = some .nop ∨ ∃ a, c.command = some (.ldafl a) := by
  obtain ⟨hbegins, hheader⟩ := h
  cases hcmd : c.command with
  | none => simp [Cycle.beginsPass, hcmd] at hbegins
  | some i =>
    cases i with
    | nop => exact .inl rfl
    | ldhdr hw => simp [Cycle.header, hcmd] at hheader
    | ldafl a => exact .inr ⟨a, rfl⟩
    | clr => simp [Cycle.beginsPass, hcmd] at hbegins

/-- R22, R23, R26: an edge inside the window keeps HV, HDR and SERR. -/
theorem clockEdge_keeps_header {c : Cycle} (hc : InWindow c) {s t u : State} (ht : KeepsHeader s t)
    (h : clockEdge c t = .next u) : KeepsHeader s u := by
  obtain hcmd | ⟨a, hcmd⟩ := command_of_inWindow hc
  · rw [clockEdge_of_command hcmd] at h
    cases h; exact ht
  · rw [clockEdge_of_command hcmd] at h
    cases h; exact ht

/-- R170: the edge of a NOP cycle keeps the state. -/
theorem clockEdge_of_isNop {c : Cycle} (h : IsNop c) (s : State) : clockEdge c s = .next s := clockEdge_of_command h s

/-- Settles O46: the window's cycles keep HV, HDR and SERR, all that the field and validator outputs read; NOPs keep the whole state. -/
theorem packetIsVisibleThroughItsWindow : Obligations.PacketIsVisibleThroughItsWindow := by
  refine fun bias s cs last hcs => ⟨fun o ho => ?_, fun hnops o ho => ?_⟩
  · obtain ⟨t, idx, pj, ⟨hhv, hhdr, hserr⟩, rfl⟩ := exists_state_of_mem_observe bias (P := KeepsHeader s)
      (fun c hc _ _ => clockEdge_keeps_header (hcs c hc)) last ⟨rfl, rfl, rfl⟩ ho
    obtain ⟨-, -, -, -, -, -, -, -, -, -, -, -, hok, herr, hterm, hvalid⟩ :=
      headerOutputsReadOnlyHvHdrSerr t s bias bias idx idx pj pj hhv hhdr hserr
    exact ⟨congrArg headerFields hhdr.symm, hok, herr, hterm, hvalid⟩
  · obtain ⟨t, idx, pj, rfl, rfl⟩ := exists_state_of_mem_observe bias (P := (· = s))
      (fun c hc u v hu hedge => by cases (clockEdge_of_isNop (hnops c hc) u).symm.trans hedge; exact hu) last rfl ho
    exact ⟨rfl, rfl, rfl, rfl, rfl⟩

end Sys2Proof.Machine
end

section
/-! PROOF. Reset and the start of a pass (70_reset_and_hazards.md): reset overrides every command (O43), and a pass start forgets what
the registers held (O44). -/

namespace Sys2Proof.Machine

/-- R240: reset lasts as long as `rst` is held. -/
theorem run_of_rst_high {cs : List Cycle} (hne : cs ≠ []) (hrst : ∀ c ∈ cs, c.rst = true) (s : State) :
    run cs s = .next (resetRegisters s) := by
  induction cs generalizing s with
  | nil => exact absurd rfl hne
  | cons c cs ih =>
    obtain ⟨hc, hcs⟩ := List.forall_mem_cons.mp hrst
    rw [run_cons (clockEdge_of_rst_or_clr (.inl hc) s)]
    cases cs with
    | nil => rfl
    | cons d ds => exact ih (List.cons_ne_nil d ds) hcs (resetRegisters s)

/-- Settles O43: every edge with `rst` high is reset; in the reset state no header is loaded, so there is no condition and no payload. -/
theorem resetOverridesEveryCommand : Obligations.ResetOverridesEveryCommand := by
  refine ⟨fun s c rest => step_of_rst_high, fun s cs hne hrst => run_of_rst_high hne hrst s, fun bias idx pj => ?_⟩
  have hvalid : Out.fieldsValid State.reset = false := NoHeader.fieldsValid ⟨rfl, rfl⟩
  obtain ⟨-, hoffset, hlength, -, hclass⟩ := noPayload_of_not_bndReady (bias := bias) (bndReady_of_not_fieldsValid hvalid)
  exact ⟨status_reset bias, congrArg ErrCode.code (errCode_of_not_fieldsValid bias rfl hvalid), hoffset, hlength,
    congrArg IdxClass.code (hclass idx)⟩

/-- Settles O44: the first edge leaves the same reset values from both states, and the rest of the run starts there. -/
theorem passStartForgetsEarlierState : Obligations.PassStartForgetsEarlierState := by
  intro bias s t c cs hc hinputs
  have hs := clockEdge_of_rst_or_clr hc s
  have ht : clockEdge c t = .next (resetRegisters s) := by
    rw [clockEdge_of_rst_or_clr hc t, resetRegisters, resetRegisters, hinputs]
  exact ⟨(run_cons hs cs).trans (run_cons ht cs).symm, by rw [observe_cons bias hs, observe_cons bias ht]; rfl,
    run_cons hs cs⟩

end Sys2Proof.Machine
end

section
/-! PROOF. The hazards of 70_reset_and_hazards.md: an early LDAFL is lost (O45), and what is harmless (O47). -/

namespace Sys2Proof.Machine

/-- R170: NOP cycles leave the state as it is, however many. -/
theorem run_of_nops {cs : List Cycle} (h : ∀ c ∈ cs, IsNop c) (s : State) : run cs s = .next s := by
  induction cs with
  | nil => rfl
  | cons c cs ih =>
    obtain ⟨hc, hcs⟩ := List.forall_mem_cons.mp h
    rw [run_cons (clockEdge_of_isNop hc s), ih hcs]

/-- R142: where `afc` is 11 the boundary waits for the AFL byte. -/
theorem bndReady_of_both {s : State} (h : s.hdr.extractLsb' 4 2 = 0b11#2) :
    Out.bndReady s = (Out.fieldsValid s && s.aflv) := by
  simp [Out.bndReady, afc_eq_slice, h]

/-- Settles O45: LDHDR drops the AFL byte and lowers AFLV, NOPs keep it so, and a later LDAFL raises it. -/
theorem earlyLdaflIsLost : Obligations.EarlyLdaflIsLost := by
  intro s a b hw
  have hload : exec (.ldhdr hw) s = _ := execLdhdr_eq hw s
  refine ⟨setAfl a s, _, setAfl b _, rfl, (execLdhdr_setAfl hw a s).trans hload, hload, rfl, rfl,
    fun hafc cs hcs => ⟨run_of_nops hcs _, ?_⟩, rfl, rfl, fun hafc => ?_⟩
  · rw [bndReady_of_both hafc, Bool.and_false]
  · rw [bndReady_of_both hafc, setAfl_aflv, Bool.and_true]
    rfl

/-- R248: a run without its NOP cycles ends in the same state. -/
theorem run_filter_not_nop (cs : List Cycle) (s : State) :
    run (cs.filter fun c => c.command != some .nop) s = run cs s := by
  induction cs generalizing s with
  | nil => rfl
  | cons c cs ih =>
    obtain ⟨t, hedge⟩ := clockEdge_next c s
    by_cases hnop : c.command = some .nop
    · rw [List.filter_cons_of_neg (by simp [hnop]), run_cons (clockEdge_of_isNop hnop s), ih]
    · rw [List.filter_cons_of_pos (by simpa using hnop), run_cons hedge, run_cons hedge, ih]

theorem idxClass_code_injective : Function.Injective IdxClass.code := by
  intro a b
  cases a <;> cases b <;> decide

theorem errCode_code_injective : Function.Injective ErrCode.code := by
  intro a b
  cases a <;> cases b <;> decide

/-- Settles O47: NOPs drop out of a run, LDAFL overwrites LDAFL, and where `afc` is not 11 the boundary ports read neither AFL nor
AFLV (R150), the class and the condition being determined by their codes. -/
theorem whatIsNotAHazard : Obligations.WhatIsNotAHazard := by
  refine ⟨run_filter_not_nop, fun a b s => ⟨setAfl a s, rfl, rfl⟩, fun bias a s idx pj hafc => ⟨setAfl a s, rfl, ?_⟩⟩
  obtain ⟨-, hsame⟩ := aflIsReadOnlyWhenBothArePresent bias s a true idx pj
  obtain ⟨hready, herr, hoffset, hlength, hclass, hpsel, -, hcode, -⟩ := hsame hafc
  exact ⟨hready, herr, hoffset, hlength, idxClass_code_injective hclass, hpsel, errCode_code_injective hcode⟩

end Sys2Proof.Machine
end
